-- ==== Sys2Proof/Word.lean ====
section
/-! DEFINITION. The byte, the port word and the command names.

A byte is an unsigned 8-bit value (spec/00_scope.md section 4). The block's only arithmetic on bytes
is exclusive OR; lengths and counts are natural numbers. -/

namespace Sys2Proof

/-- An unsigned 8-bit value, bit 7 most significant (00_scope.md section 4). -/
abbrev Byte := BitVec 8

/-- What the host puts on the block's ports for one step (10_state.md R16, 30_encoding.md R44):
an `op` value with the operand ports, the separate RESET signal, or a command byte presented to
CLASSIFY. The three are different inputs, so a value of one is never read as another.
DESIGN CHOICE (log 6): the operands stand on an address port, a command port and one sequence port. -/
inductive PortWord where
  /-- The 2-bit `op` field and the operand ports (30_encoding.md R44). -/
  | operation (op : BitVec 2) (address command : Byte) (bytes : List Byte)
  /-- The RESET signal, "a separate input signal, not an `op` value" (30_encoding.md R44). -/
  | resetSignal
  /-- A frame command byte presented to the internal function CLASSIFY (40_codec.md R48; log 7). -/
  | commandByte (c : Byte)
  deriving DecidableEq, Repr

/-- The symbolic names of command codes (30_encoding.md R39, R40). -/
inductive CommandName where
  | ok
  | error
  | stop
  | volume
  | state
  | price
  | block
  | linetest
  | progI
  | progW
  | unblock
  | zer
  | progPrc
  | tank
  /-- Every code outside the closed table, its raw value kept (30_encoding.md R40). -/
  | unknown (c : Byte)
  deriving DecidableEq, Repr

end Sys2Proof
end

