-- ==== Sys2Proof/Config.lean ====
section
/-! DEFINITION. What one instance is configured with.

MAX_FRAME and BUFFER_CAP are the block's only two parameters (spec/00_scope.md R7, R8), fixed for the
life of an instance (R9). The spec leaves no other value open, so there is no free value here. -/

namespace Sys2Proof

/-- The two implementation parameters (00_scope.md R7, R8). -/
structure Params where
  /-- `MAX_FRAME`: the largest frame length, in bytes, that the block encodes or accepts (R7). -/
  maxFrame : Nat
  /-- `BUFFER_CAP`: the capacity of the assembler's queue, in bytes (R8). -/
  bufferCap : Nat
  deriving DecidableEq, Repr

/-- The legal ranges: `6 ≤ MAX_FRAME ≤ 255` and `BUFFER_CAP ≥ 255` (00_scope.md R7, R8). -/
abbrev Params.Legal (p : Params) : Prop :=
  6 ≤ p.maxFrame ∧ p.maxFrame ≤ 255 ∧ 255 ≤ p.bufferCap

/-- The values this spec takes: 255 and 1024 (00_scope.md R7, R8). -/
def Params.standard : Params := ⟨255, 1024⟩

end Sys2Proof
end

