-- ==== Sys2Proof/Syntax.lean ====
section
/-! DEFINITION. The instructions: one constructor per row of spec/opcode_table.json. -/

namespace Sys2Proof

/-- One constructor per row of the opcode table: the four operations (30_encoding.md R44), the RESET
signal, the fourteen known command codes (R39) and the UNKNOWN fallback (R40). -/
inductive Instr where
  /-- ENCODE `address, command, data` (40_codec.md R49). -/
  | encode (address command : Byte) (data : List Byte)
  /-- DECODE `bytes` (40_codec.md R50). -/
  | decode (bytes : List Byte)
  /-- PUSH `chunk` (41_assembler.md R58). -/
  | push (chunk : List Byte)
  /-- PULL (41_assembler.md R60). -/
  | pull
  /-- RESET (70_reset_and_hazards.md R82). -/
  | reset
  /-- OK, 30 (30_encoding.md R39). -/
  | ok
  /-- ERROR, 37 (30_encoding.md R39). -/
  | error
  /-- STOP, 47 (30_encoding.md R39). -/
  | stop
  /-- VOLUME, 69 (30_encoding.md R39). -/
  | volume
  /-- STATE, 75 (30_encoding.md R39). -/
  | state
  /-- PRICE, 92 (30_encoding.md R39). -/
  | price
  /-- BLOCK, 105 (30_encoding.md R39). -/
  | block
  /-- LINETEST, 106 (30_encoding.md R39). -/
  | linetest
  /-- PROG_I, 112 (30_encoding.md R39). -/
  | progI
  /-- PROG_W, 117 (30_encoding.md R39). -/
  | progW
  /-- UNBLOCK, 119 (30_encoding.md R39). -/
  | unblock
  /-- ZER, 129 (30_encoding.md R39). -/
  | zer
  /-- PROG_PRC, 169 (30_encoding.md R39). -/
  | progPrc
  /-- TANK, 197 (30_encoding.md R39). -/
  | tank
  /-- UNKNOWN(c), every code outside the table (30_encoding.md R40). -/
  | unknown (c : Byte)
  deriving DecidableEq, Repr

end Sys2Proof
end

