-- ==== Sys2Proof/Decode.lean ====
section
/-! DEFINITION. From the ports to an instruction, and back.

The command-code table and CLASSIFY (spec/30_encoding.md R39, R40; 40_codec.md R48), the reading of a
port word (30_encoding.md R44), its inverse, and the reading of an opcode-table word. Every `op`
value selects an operation and every command byte classifies, so a port word is never refused. -/

namespace Sys2Proof

/-! ## The command-code table -/

/-- The closed table of known command codes, values in decimal as the spec gives them
(30_encoding.md R39). -/
def commandTable : List (CommandName × Byte) :=
  [(.ok, 30#8), (.error, 37#8), (.stop, 47#8), (.volume, 69#8), (.state, 75#8), (.price, 92#8),
    (.block, 105#8)]
  ++ [(.linetest, 106#8), (.progI, 112#8), (.progW, 117#8), (.unblock, 119#8), (.zer, 129#8),
    (.progPrc, 169#8), (.tank, 197#8)]

/-- CLASSIFY (40_codec.md R48): the name of a command byte, `UNKNOWN(c)` outside the table. Total. -/
def classify (c : Byte) : CommandName :=
  match commandTable.find? (fun row => row.2 == c) with
  | some row => row.1
  | none => .unknown c

/-- The raw command code a name stands for (30_encoding.md R39, R40). -/
def CommandName.code : CommandName → Byte
  | .ok => 30#8
  | .error => 37#8
  | .stop => 47#8
  | .volume => 69#8
  | .state => 75#8
  | .price => 92#8
  | .block => 105#8
  | .linetest => 106#8
  | .progI => 112#8
  | .progW => 117#8
  | .unblock => 119#8
  | .zer => 129#8
  | .progPrc => 169#8
  | .tank => 197#8
  | .unknown c => c

/-- The instruction of a command-code row (log 7). -/
def instrOfName : CommandName → Instr
  | .ok => .ok
  | .error => .error
  | .stop => .stop
  | .volume => .volume
  | .state => .state
  | .price => .price
  | .block => .block
  | .linetest => .linetest
  | .progI => .progI
  | .progW => .progW
  | .unblock => .unblock
  | .zer => .zer
  | .progPrc => .progPrc
  | .tank => .tank
  | .unknown c => .unknown c

/-! ## The port word -/

/-- The instruction on the ports (30_encoding.md R44). Ports that the selected operation does not
take are not read (10_state.md R16; log 6). -/
def decodeWord : PortWord → Instr
  | .operation op a c bs =>
    if op = 0b00#2 then .encode a c bs
    else if op = 0b01#2 then .decode bs
    else if op = 0b10#2 then .push bs
    else .pull
  | .resetSignal => .reset
  | .commandByte c => instrOfName (classify c)

/-- The port word of an instruction (30_encoding.md R39, R44). Ports the operation does not take
are driven with zeros and no bytes (log 6). -/
def encodeInstr : Instr → PortWord
  | .encode a c d => .operation 0b00#2 a c d
  | .decode bs => .operation 0b01#2 0#8 0#8 bs
  | .push k => .operation 0b10#2 0#8 0#8 k
  | .pull => .operation 0b11#2 0#8 0#8 []
  | .reset => .resetSignal
  | .ok => .commandByte 0b00011110#8
  | .error => .commandByte 0b00100101#8
  | .stop => .commandByte 0b00101111#8
  | .volume => .commandByte 0b01000101#8
  | .state => .commandByte 0b01001011#8
  | .price => .commandByte 0b01011100#8
  | .block => .commandByte 0b01101001#8
  | .linetest => .commandByte 0b01101010#8
  | .progI => .commandByte 0b01110000#8
  | .progW => .commandByte 0b01110101#8
  | .unblock => .commandByte 0b01110111#8
  | .zer => .commandByte 0b10000001#8
  | .progPrc => .commandByte 0b10101001#8
  | .tank => .commandByte 0b11000101#8
  | .unknown c => .commandByte c

/-! ## The opcode table's words -/

/-- The port word of an opcode-table word. DESIGN CHOICE (log 8): the table numbers `op` values and
command bytes from 0 alike, and names the RESET row no bits. A word of no bits is the RESET signal;
a word below 4 is an `op` value with its operand ports at zero; any other byte is a command byte;
anything wider is no word of the table. -/
def PortWord.ofTable (nbits w : Nat) : Option PortWord :=
  if nbits = 0 then (if w = 0 then some .resetSignal else none)
  else if 8 < nbits ∨ 2 ^ nbits ≤ w then none
  else if w < 4 then some (.operation (BitVec.ofNat 2 w) 0#8 0#8 [])
  else some (.commandByte (BitVec.ofNat 8 w))

/-- The instruction of an opcode-table word, none where the table has no such word (log 8). -/
def decodeTableWord (nbits w : Nat) : Option Instr :=
  (PortWord.ofTable nbits w).map decodeWord

end Sys2Proof
end

