-- ==== Sys2Proof/Machine/Result.lean ====
section
/-! DEFINITION. The values the block's operations put out (spec/10_state.md R16, R17;
30_encoding.md R43; 60_exceptions.md R73, R77). -/

namespace Sys2Proof.Machine

/-- A packet: the decoded content of a frame, its command as the raw byte (10_state.md R17). -/
structure Packet where
  address : Byte
  command : Byte
  data : List Byte
  deriving DecidableEq, Repr

/-- Why a byte sequence is no frame (30_encoding.md R42, R43; a code, not text: 60_exceptions.md R74). -/
inductive FormatReason where
  | badStx
  | badEtx
  | badLength
  | badAddress
  deriving DecidableEq, Repr

/-- The four parse results; exactly one holds at a time (30_encoding.md R43). -/
inductive ParseResult where
  | success (p : Packet)
  /-- The recomputed and the received checksum (40_codec.md R52). -/
  | checksumError (expected actual : Byte)
  | invalidFormat (why : FormatReason)
  /-- Carries no data (40_codec.md R54). -/
  | incomplete
  deriving DecidableEq, Repr

/-- A diagnostic event (30_encoding.md R43). -/
inductive Diag where
  | checksum (expected actual : Byte)
  | format (why : FormatReason)
  /-- How many of the oldest bytes the cap dropped (60_exceptions.md R75). -/
  | overflow (dropped : Nat)
  deriving DecidableEq, Repr

/-- Why an operation is refused (60_exceptions.md R77). -/
inductive RefuseReason where
  | encodeAddressZero
  | encodeDataTooLong
  | concurrentUse
  | badParameters
  deriving DecidableEq, Repr

/-- The outputs of one operation (10_state.md R16). -/
inductive Output where
  /-- No outputs: RESET (R16), a refused operation (60_exceptions.md R78), or no operation yet. -/
  | nothing
  /-- ENCODE's frame. -/
  | frame (bytes : List Byte)
  /-- DECODE's parse result. -/
  | parsed (r : ParseResult)
  /-- PUSH's diagnostic list. -/
  | pushed (events : List Diag)
  /-- PULL's result and diagnostic list. -/
  | pulled (packet : Option Packet) (events : List Diag)
  /-- The name CLASSIFY gives a command byte (40_codec.md R48). -/
  | classified (name : CommandName)
  deriving DecidableEq, Repr

end Sys2Proof.Machine
end

