-- ==== Sys2Proof/Machine/Operands.lean ====
section
/-! DEFINITION. The operand forms: bytes of a sequence, and the fields of a frame.

Every operand of the block is a byte or a finite byte sequence (spec/10_state.md R16); a frame's
fields are whole bytes at fixed places (30_encoding.md R33). -/

namespace Sys2Proof.Machine

/-- The start marker, 0x20 and not ASCII's 0x02 (30_encoding.md R32). -/
def stx : Byte := 0x20#8

/-- The end marker, 0x36 and not ASCII's 0x03 (30_encoding.md R32). -/
def etx : Byte := 0x36#8

/-- `s[i]`; every use has `i < len(s)` (00_scope.md section 4), so the default is never read. -/
def byteAt (s : List Byte) (i : Nat) : Byte := s.getD i 0#8

/-- `s[a .. b)` (00_scope.md section 4). -/
def slice (s : List Byte) (a b : Nat) : List Byte := (s.drop a).take (b - a)

/-- The frameLength field `L`, byte 1, as an unsigned number (30_encoding.md R34). -/
def lengthField (b : List Byte) : Nat := (byteAt b 1).toNat

/-- The length of a frame with `n` data bytes: `L = 6 + n` (30_encoding.md R33). -/
def frameLength (n : Nat) : Nat := 6 + n

/-- A frame's bytes before its checksum: `[STX, L, a, c] ++ d` (40_codec.md R49). -/
def frameHeader (a c : Byte) (d : List Byte) : List Byte :=
  [stx, BitVec.ofNat 8 (frameLength d.length), a, c] ++ d

/-- The packet in the fields of a frame of length `L` (40_codec.md R50 step 5). -/
def packetOf (b : List Byte) (L : Nat) : Packet := ⟨byteAt b 2, byteAt b 3, slice b 4 (L - 2)⟩

/-- The packet invariants: `1 ≤ address ≤ 255`, `len(data) ≤ MAX_FRAME − 6` (10_state.md R17). -/
abbrev Packet.Valid (p : Params) (k : Packet) : Prop :=
  k.address ≠ 0#8 ∧ k.data.length + 6 ≤ p.maxFrame

/-- The symbolic name of a packet's command (10_state.md R17, 40_codec.md R48). -/
def Packet.name (k : Packet) : CommandName := classify k.command

end Sys2Proof.Machine
end

