-- ==== Sys2Proof/Machine/Flags.lean ====
section
/-! DEFINITION. The integrity check, and the numeric codes of results.

The block has no status flags (spec/10_state.md R14). What stands here instead is its one computed
check, the XOR checksum (40_codec.md R47), and the codes by which its results, reasons and events
leave it (30_encoding.md R43). -/

namespace Sys2Proof.Machine

/-- CHECKSUM (40_codec.md R47): the exclusive OR of a byte sequence, 0x00 of the empty one. -/
def checksum (s : List Byte) : Byte := s.foldl (fun x b => x ^^^ b) 0x00#8

/-- The 2-bit tag of a parse result (30_encoding.md R43). -/
def ParseResult.tag : ParseResult → BitVec 2
  | .success _ => 0#2
  | .checksumError _ _ => 1#2
  | .invalidFormat _ => 2#2
  | .incomplete => 3#2

/-- The 2-bit code of an InvalidFormat reason (30_encoding.md R43). -/
def FormatReason.code : FormatReason → BitVec 2
  | .badStx => 0#2
  | .badEtx => 1#2
  | .badLength => 2#2
  | .badAddress => 3#2

/-- The 2-bit kind of a diagnostic event; kind 0 is unused (30_encoding.md R43). -/
def Diag.kind : Diag → BitVec 2
  | .checksum _ _ => 1#2
  | .format _ => 2#2
  | .overflow _ => 3#2

end Sys2Proof.Machine
end

