-- ==== Sys2Proof/Machine/State.lean ====
section
/-! DEFINITION. The state of one instance of the block, and its value after reset.

The spec gives the machine one architectural item, the queue, and one bookkeeping item, the sticky
`refused` mark (spec/10_state.md R10, R11, R13). The parameters stand beside them because the step
has no other argument (log 1). The ports' inputs and outputs (R16) have a place here (logs 4, 5). -/

namespace Sys2Proof.Machine

/-- Who issued an action (20_memory.md R29, 60_exceptions.md R77; log 9). -/
inductive Issuer where
  /-- The instance's one host, no other operation in progress. -/
  | host
  /-- A second agent: disallowed. -/
  | otherAgent
  /-- An operation that overlaps another: disallowed. -/
  | overlapping
  deriving DecidableEq, Repr

/-- What an agent asks of the block: one port word, or the pseudo-operation DRAIN (30_encoding.md
R44, R45). -/
inductive Action where
  | word (w : PortWord)
  | drain
  deriving DecidableEq, Repr

/-- One action on its way to the block. -/
structure Request where
  issuer : Issuer
  action : Action
  deriving DecidableEq, Repr

/-- The state of one instance. -/
structure State where
  /-- The assembler queue `Q`; the head is the oldest byte (10_state.md R11). -/
  q : List Byte
  /-- The sticky mark of the model: some operation was refused (10_state.md R13). -/
  refused : Bool
  /-- MAX_FRAME and BUFFER_CAP, fixed for the instance (10_state.md R15; log 1). -/
  params : Params
  /-- Why the latest operation was refused, none if it was not (60_exceptions.md R77; log 3). -/
  refusal : Option RefuseReason
  /-- The outputs of the latest operation (10_state.md R16; log 4). -/
  out : Output
  /-- Actions issued and not yet performed, in issue order (20_memory.md R29; log 5). -/
  port : List Request
  deriving DecidableEq, Repr

/-- No fault exists: "The block has no traps, exceptions in the processor sense" (60_exceptions.md
R79), every outcome is a result value (40_codec.md R53), and no behaviour is stuck
(93_implementation_defined.md). -/
inductive Fault where
  deriving DecidableEq, Repr

/-- The host interface's refusals. The spec's own refusals (60_exceptions.md R77) set the sticky mark
and the run goes on (R78), so they are next states and not these (log 2). -/
inductive Refusal where
  /-- Raised by an arm of `exec` whose instruction has no meaning yet: none. Safe. -/
  | notModelled (mnemonic : String)
  deriving DecidableEq, Repr

/-- What one operation or step answers. -/
abbrev Result := Host.Outcome State Fault Refusal

/-- An instance right after it is created with parameters `p` and RESET is asserted (10_state.md R19,
70_reset_and_hazards.md R83): `Q` empty, `refused` false. The other three fields are the model's own
and start empty (log 12). -/
def State.boot (p : Params) : State where
  q := []
  refused := false
  params := p
  refusal := none
  out := .nothing
  port := []

/-- After reset, with the parameter values this spec takes (10_state.md R19). -/
def State.reset : State := State.boot Params.standard

end Sys2Proof.Machine
end

