-- ==== Sys2Proof/Machine/Ops.lean ====
section
/-! DEFINITION. The operations over State that every meaning shares.

The block takes no exception (spec/60_exceptions.md R79); where a processor model has exception
entry, this one has the refusal of an operation (R78), one shared operation. The queue is reached
by appending at the end, removing at the head, and clearing (20_memory.md R20). -/

namespace Sys2Proof.Machine

/-! ## Ending an operation -/

/-- The state after an operation with outputs `o`. -/
def State.answer (o : Output) (s : State) : State := { s with out := o, refusal := none }

/-- The state after a refused operation (60_exceptions.md R78): no outputs, `Q` as it was, and the
sticky mark set. -/
def State.markRefused (r : RefuseReason) (s : State) : State :=
  { s with out := .nothing, refusal := some r, refused := true }

/-- `raise Refuse(r)` (00_scope.md section 4, 60_exceptions.md R78; log 2). -/
def refuse (r : RefuseReason) (s : State) : Result := .next (s.markRefused r)

/-- An operation on the instance: refused with BAD_PARAMETERS where the instance is configured
outside the legal ranges (60_exceptions.md R77; log 10). DESIGN CHOICE (log 16): the parameters are
tested before ENCODE's operands, an order R77 does not give. -/
def operate (s : State) (body : Result) : Result :=
  if s.params.Legal then body else refuse .badParameters s

/-! ## The queue -/

/-- `Q <- v`. -/
def State.setQueue (v : List Byte) (s : State) : State := { s with q := v }

/-- The actions still to be performed. -/
def State.setPort (v : List Request) (s : State) : State := { s with port := v }

/-- CAP_CHECK's effect on `Q` (41_assembler.md R59): keep the newest `cap` bytes. -/
def capKeep (cap : Nat) (q : List Byte) : List Byte := q.drop (q.length - cap)

/-- CAP_CHECK's diagnostic list (41_assembler.md R59): OVERFLOW(n) when the length exceeds the cap,
strictly. -/
def capEvents (cap : Nat) (q : List Byte) : List Diag :=
  if cap < q.length then [.overflow (q.length - cap)] else []

end Sys2Proof.Machine
end

