-- ==== Sys2Proof/Machine/Codec.lean ====
section
/-! DEFINITION. The codec: ENCODE and DECODE (spec/40_codec.md R49, R50). Both are pure: they read the
operands and the parameters, and neither reads nor writes `Q` (10_state.md R12). -/

namespace Sys2Proof.Machine

/-! ## ENCODE -/

/-- Why ENCODE refuses its operands, the address tested before the length (40_codec.md R49). -/
def encodeRefusal (p : Params) (a : Byte) (d : List Byte) : Option RefuseReason :=
  if a = 0#8 then some .encodeAddressZero
  else if p.maxFrame - 6 < d.length then some .encodeDataTooLong
  else none

/-- The frame of a packet: `h ++ [CHECKSUM(h), ETX]` (40_codec.md R49). -/
def encodeFrame (a c : Byte) (d : List Byte) : List Byte :=
  frameHeader a c d ++ [checksum (frameHeader a c d), etx]

/-- ENCODE (40_codec.md R49). -/
def execEncode (a c : Byte) (d : List Byte) (s : State) : Result :=
  operate s <|
    match encodeRefusal s.params a d with
    | some r => refuse r s
    | none => .next (s.answer (.frame (encodeFrame a c d)))

/-! ## DECODE -/

/-- DECODE's steps 4 to 7 on a sequence that holds all `L ≥ 6` bytes (40_codec.md R50): ETX, the
checksum, MAX_FRAME, the address, in that order. -/
def decodeBody (p : Params) (b : List Byte) (L : Nat) : ParseResult :=
  if byteAt b (L - 1) ≠ etx then .invalidFormat .badEtx
  else if checksum (slice b 0 (L - 2)) ≠ byteAt b (L - 2) then
    .checksumError (checksum (slice b 0 (L - 2))) (byteAt b (L - 2))
  else if p.maxFrame < L then .invalidFormat .badLength
  else if byteAt b 2 = 0#8 then .invalidFormat .badAddress
  else .success (packetOf b L)

/-- DECODE's parse result (40_codec.md R50): steps 1 to 3b, then `decodeBody`. Total (R53). -/
def decodeFrame (p : Params) (b : List Byte) : ParseResult :=
  if b.length < 6 then .incomplete
  else if byteAt b 0 ≠ stx then .invalidFormat .badStx
  else if lengthField b < 6 then .invalidFormat .badLength
  else if b.length < lengthField b then .incomplete
  else decodeBody p b (lengthField b)

/-- DECODE (40_codec.md R50). -/
def execDecode (b : List Byte) (s : State) : Result :=
  operate s (.next (s.answer (.parsed (decodeFrame s.params b))))

end Sys2Proof.Machine
end

