-- ==== Sys2Proof/Machine/Assembler.lean ====
section
/-! DEFINITION. The assembler: PUSH and PULL (spec/41_assembler.md R58 to R64). -/

namespace Sys2Proof.Machine

/-! ## PUSH -/

/-- PUSH (41_assembler.md R58, R59): append the chunk, then apply the buffer cap. -/
def execPush (k : List Byte) (s : State) : Result :=
  operate s <|
    .next ((s.setQueue (capKeep s.params.bufferCap (s.q ++ k))).answer
      (.pushed (capEvents s.params.bufferCap (s.q ++ k))))

/-! ## PULL -/

/-- What one PULL returns, emits and leaves in the queue. -/
structure Pulled where
  packet : Option Packet
  events : List Diag
  rest : List Byte
  deriving DecidableEq, Repr

/-- A dropped byte's event stands before the events of the passes after it (41_assembler.md R64). -/
def Pulled.emit (d : Diag) (r : Pulled) : Pulled := { r with events := d :: r.events }

/-- PULL's loop (41_assembler.md R60). Each pass returns or drops one byte, so it recurses on the
queue (R66). On the empty queue DECODE is Incomplete. -/
def pullQueue (p : Params) : List Byte → Pulled
  | [] => ⟨none, [], []⟩
  | b :: q =>
    match decodeFrame p (b :: q) with
    | .success k => ⟨some k, [], (b :: q).drop (frameLength k.data.length)⟩
    | .incomplete => ⟨none, [], b :: q⟩
    | .checksumError e x => (pullQueue p q).emit (.checksum e x)
    | .invalidFormat why => (pullQueue p q).emit (.format why)

/-- PULL (41_assembler.md R60). -/
def execPull (s : State) : Result :=
  operate s <|
    .next ((s.setQueue (pullQueue s.params s.q).rest).answer
      (.pulled (pullQueue s.params s.q).packet (pullQueue s.params s.q).events))

end Sys2Proof.Machine
end

