-- ==== Sys2Proof/Machine/Commands.lean ====
section
/-! DEFINITION. The command codes.

A command code is a value of a frame's command byte (spec/30_encoding.md R36). The block's one
treatment of it is CLASSIFY (40_codec.md R48), which is total and never fails; the document gives no
further meaning (91_not_in_source.md N6). Each row's meaning is that classification of its code,
read out, with no effect on the queue (log 7). -/

namespace Sys2Proof.Machine

/-- CLASSIFY of a command byte, its name put out (40_codec.md R48). -/
def classifyByte (c : Byte) (s : State) : Result :=
  operate s (.next (s.answer (.classified (classify c))))

/-- OK, decimal 30 (30_encoding.md R39). -/
def execOk (s : State) : Result := classifyByte 30#8 s

/-- ERROR, decimal 37 (30_encoding.md R39). -/
def execError (s : State) : Result := classifyByte 37#8 s

/-- STOP, decimal 47 (30_encoding.md R39). -/
def execStop (s : State) : Result := classifyByte 47#8 s

/-- VOLUME, decimal 69 (30_encoding.md R39). -/
def execVolume (s : State) : Result := classifyByte 69#8 s

/-- STATE, decimal 75 (30_encoding.md R39). -/
def execState (s : State) : Result := classifyByte 75#8 s

/-- PRICE, decimal 92 (30_encoding.md R39). -/
def execPrice (s : State) : Result := classifyByte 92#8 s

/-- BLOCK, decimal 105 (30_encoding.md R39). -/
def execBlock (s : State) : Result := classifyByte 105#8 s

/-- LINETEST, decimal 106 (30_encoding.md R39). -/
def execLinetest (s : State) : Result := classifyByte 106#8 s

/-- PROG_I, decimal 112 (30_encoding.md R39). -/
def execProgI (s : State) : Result := classifyByte 112#8 s

/-- PROG_W, decimal 117 (30_encoding.md R39). -/
def execProgW (s : State) : Result := classifyByte 117#8 s

/-- UNBLOCK, decimal 119 (30_encoding.md R39). -/
def execUnblock (s : State) : Result := classifyByte 119#8 s

/-- ZER, decimal 129 (30_encoding.md R39). -/
def execZer (s : State) : Result := classifyByte 129#8 s

/-- PROG_PRC, decimal 169 (30_encoding.md R39). -/
def execProgPrc (s : State) : Result := classifyByte 169#8 s

/-- TANK, decimal 197 (30_encoding.md R39). -/
def execTank (s : State) : Result := classifyByte 197#8 s

/-- UNKNOWN(c): not an error, the raw value kept (30_encoding.md R40). -/
def execUnknown (c : Byte) (s : State) : Result := classifyByte c s

end Sys2Proof.Machine
end

