-- ==== Sys2Proof/Machine/Signal.lean ====
section
/-! DEFINITION. The RESET signal (spec/70_reset_and_hazards.md R82). -/

namespace Sys2Proof.Machine

/-- RESET: `Q <- []` and nothing else; no outputs, the parameters and the sticky mark kept
(70_reset_and_hazards.md R82, 10_state.md R13, R16). -/
def execReset (s : State) : Result := operate s (.next ((s.setQueue []).answer .nothing))

end Sys2Proof.Machine
end

