-- ==== Sys2Proof/Machine/Dispatch.lean ====
section
/-! DEFINITION. One arm per instruction. -/

namespace Sys2Proof.Machine

def exec (i : Instr) (s : State) : Host.Outcome State Fault Refusal :=
  match i with
  | .encode a c d => Sys2Proof.Machine.execEncode a c d s
  | .decode bs => Sys2Proof.Machine.execDecode bs s
  | .push k => Sys2Proof.Machine.execPush k s
  | .pull => Sys2Proof.Machine.execPull s
  | .reset => Sys2Proof.Machine.execReset s
  | .ok => Sys2Proof.Machine.execOk s
  | .error => Sys2Proof.Machine.execError s
  | .stop => Sys2Proof.Machine.execStop s
  | .volume => Sys2Proof.Machine.execVolume s
  | .state => Sys2Proof.Machine.execState s
  | .price => Sys2Proof.Machine.execPrice s
  | .block => Sys2Proof.Machine.execBlock s
  | .linetest => Sys2Proof.Machine.execLinetest s
  | .progI => Sys2Proof.Machine.execProgI s
  | .progW => Sys2Proof.Machine.execProgW s
  | .unblock => Sys2Proof.Machine.execUnblock s
  | .zer => Sys2Proof.Machine.execZer s
  | .progPrc => Sys2Proof.Machine.execProgPrc s
  | .tank => Sys2Proof.Machine.execTank s
  | .unknown c => Sys2Proof.Machine.execUnknown c s

end Sys2Proof.Machine
end

