-- ==== Sys2Proof/Machine/Port.lean ====
section
/-! DEFINITION. Taking the host's next action off the port (spec/20_memory.md R29; logs 5, 9, 11). -/

namespace Sys2Proof.Machine

/-- What the block does in one step. -/
inductive Fetched where
  /-- Nothing is issued: "The block never initiates anything" (00_scope.md R5). -/
  | idle
  /-- The action is a disallowed use and is refused (60_exceptions.md R77). -/
  | rejected (r : RefuseReason) (s : State)
  /-- The block performs one operation. -/
  | run (i : Instr) (s : State)
  /-- The host's DRAIN issues one more PULL, and ends with the actions in `rest`. -/
  | drain (rest : List Request)
  deriving DecidableEq, Repr

/-- The head of the port, in issue order (20_memory.md R29). An action of a second agent, or one that
overlaps another, is CONCURRENT_USE (60_exceptions.md R77; log 9).
DESIGN CHOICE (log 16): R77 gives no order among its reasons where several apply. The issuer is
tested here, before the parameters and before ENCODE's operands, so such an action is refused with
CONCURRENT_USE also on an instance with illegal parameters, and also where it is an ENCODE that would
be refused. -/
def fetch (s : State) : Fetched :=
  match s.port with
  | [] => .idle
  | r :: rest =>
    if r.issuer = .host then
      match r.action with
      | .word w => .run (decodeWord w) (s.setPort rest)
      | .drain => .drain rest
    else .rejected .concurrentUse (s.setPort rest)

/-- A PULL that returned a packet: DRAIN goes on after it and ends after any other (30_encoding.md
R45). -/
def returnedPacket : Output → Bool
  | .pulled (some _) _ => true
  | _ => false

/-- DRAIN after one of its PULLs: it stays on the port until a PULL returns None (30_encoding.md
R45; log 11). -/
def finishDrain (rest : List Request) (r : Result) : Result :=
  match r with
  | .next t => .next (if returnedPacket t.out then t else t.setPort rest)
  | .fault e => .fault e
  | .refused e => .refused e

/-- The port with an opcode-table word issued by the host in front of it, as it is where the table
has no such word (log 8). -/
def placeTableWord (port : List Request) (nbits w : Nat) : List Request :=
  match PortWord.ofTable nbits w with
  | some v => ⟨.host, .word v⟩ :: port
  | none => port

end Sys2Proof.Machine
end

