-- ==== Sys2Proof/Machine/Step.lean ====
section
/-! DEFINITION. One step: the block performs the host's next action (spec/20_memory.md R27, R29). -/

namespace Sys2Proof.Machine

/-- One step of the block. Each operation is one atomic step (20_memory.md R27). -/
def step (s : State) : Host.Outcome State Fault Refusal :=
  match fetch s with
  | .idle => .next s
  | .rejected r t => refuse r t
  | .run i t => exec i t
  | .drain rest => finishDrain rest (exec .pull s)

/-- `s` with an opcode-table word as the host's next action (log 5). -/
def State.withFetchWord (s : State) (nbits w : Nat) : State :=
  s.setPort (placeTableWord s.port nbits w)

end Sys2Proof.Machine
end

