-- ==== Sys2Proof/Machine/Listing.lean ====
section
/-! DEFINITION. The textual syntax of operations (spec/30_encoding.md R45): a reader of lines, which
rejects by name, and a writer. Text is a list of characters. Log 13 says what R45 leaves open. -/

namespace Sys2Proof.Machine

/-- Why a line is no operation. -/
inductive ListingError where
  /-- The first word is none of ENCODE, DECODE, PUSH, PULL, RESET, DRAIN. -/
  | unknownOperation
  /-- The rest of the line is not the operand form of its operation. -/
  | badOperands
  deriving DecidableEq, Repr

/-! ## Characters and words -/

/-- A character that separates words: space, tab, carriage return. -/
def isBlank (c : Char) : Bool := c == ' ' || c == '\t' || c == '\r'

/-- A character that is a word of its own: comma and the two brackets. -/
def isMark (c : Char) : Bool := c == ',' || c == '[' || c == ']'

/-- The word under way, as a list of at most one word. -/
def flush (w : List Char) : List (List Char) := if w.isEmpty then [] else [w]

/-- The words of a line, with the word under way in `w`. "A comment starts with `;`" (R45). -/
def lexLine (w : List Char) : List Char → List (List Char)
  | [] => flush w
  | c :: cs =>
    if c == ';' then flush w
    else if isBlank c then flush w ++ lexLine [] cs
    else if isMark c then flush w ++ [c] :: lexLine [] cs
    else lexLine (w ++ [c]) cs

/-- The digits of a number by their value, as the spec writes hex (R45). -/
def digitSigns : List Char := "0123456789ABCDEF".toList

/-- The same digits with the letters in lower case (log 13). -/
def lowerDigitSigns : List Char := "0123456789abcdef".toList

/-- The value of a digit: its place among the digit signs of either case (log 13). -/
def digitValue (c : Char) : Option Nat :=
  match digitSigns.idxOf? c with
  | some v => some v
  | none => lowerDigitSigns.idxOf? c

/-- The digits of a number in `base`, after the value `n` read so far. -/
def readDigits (base : Nat) (n : Nat) : List Char → Option Nat
  | [] => some n
  | c :: cs =>
    match digitValue c with
    | some v => if v < base then readDigits base (base * n + v) cs else none
    | none => none

/-- "A number is decimal, or hex with a `0x` prefix" (R45). -/
def readNumber : List Char → Option Nat
  | [] => none
  | '0' :: 'x' :: c :: cs => readDigits 16 0 (c :: cs)
  | c :: cs => readDigits 10 0 (c :: cs)

/-- A number 0..255. The address may be 0 here: ENCODE refuses it (log 13). -/
def readByte (w : List Char) : Option Byte :=
  match readNumber w with
  | some n => if n < 256 then some (BitVec.ofNat 8 n) else none
  | none => none

/-- A byte of a list: "two hex digits each" (R45). -/
def readHexPair : List Char → Option Byte
  | [a, b] =>
    match readDigits 16 0 [a, b] with
    | some n => some (BitVec.ofNat 8 n)
    | none => none
  | _ => none

/-- The bytes of a list after its opening bracket, up to the closing bracket that ends the line. -/
def readBytes : List (List Char) → Option (List Byte)
  | [] => none
  | w :: ws =>
    if w = [']'] then (if ws.isEmpty then some [] else none)
    else
      match readHexPair w, readBytes ws with
      | some b, some bs => some (b :: bs)
      | _, _ => none

/-- The mnemonics of known command codes, as the table of R39 spells them. -/
def commandSpelling : CommandName → List Char
  | .ok => ['O', 'K']
  | .error => ['E', 'R', 'R', 'O', 'R']
  | .stop => ['S', 'T', 'O', 'P']
  | .volume => ['V', 'O', 'L', 'U', 'M', 'E']
  | .state => ['S', 'T', 'A', 'T', 'E']
  | .price => ['P', 'R', 'I', 'C', 'E']
  | .block => ['B', 'L', 'O', 'C', 'K']
  | .linetest => ['L', 'I', 'N', 'E', 'T', 'E', 'S', 'T']
  | .progI => ['P', 'R', 'O', 'G', '_', 'I']
  | .progW => ['P', 'R', 'O', 'G', '_', 'W']
  | .unblock => ['U', 'N', 'B', 'L', 'O', 'C', 'K']
  | .zer => ['Z', 'E', 'R']
  | .progPrc => ['P', 'R', 'O', 'G', '_', 'P', 'R', 'C']
  | .tank => ['T', 'A', 'N', 'K']
  | .unknown _ => []

/-- A command: a mnemonic of the table, or a number 0..255 (R45). -/
def readCommand (w : List Char) : Option Byte :=
  match commandTable.find? (fun row => commandSpelling row.1 == w) with
  | some row => some row.2
  | none => readByte w

/-! ## Lines -/

/-- The operands of ENCODE: `<address>, <command>, [<d0> <d1> …]`. -/
def readEncode : List (List Char) → Option Instr
  | a :: [','] :: c :: [','] :: ['['] :: ws =>
    match readByte a, readCommand c, readBytes ws with
    | some a, some c, some d => some (.encode a c d)
    | _, _, _ => none
  | _ => none

/-- An operand that is one list of bytes. -/
def readList : List (List Char) → Option (List Byte)
  | ['['] :: ws => readBytes ws
  | _ => none

/-- The action of an instruction, if there is one. -/
def wordAction (i : Option Instr) : Except ListingError (Option Action) :=
  match i with
  | some i => .ok (some (.word (encodeInstr i)))
  | none => .error .badOperands

/-- The words of a line as an action: none for an empty line. -/
def readWords : List (List Char) → Except ListingError (Option Action)
  | [] => .ok none
  | w :: ws =>
    if w = ['E', 'N', 'C', 'O', 'D', 'E'] then wordAction (readEncode ws)
    else if w = ['D', 'E', 'C', 'O', 'D', 'E'] then wordAction ((readList ws).map .decode)
    else if w = ['P', 'U', 'S', 'H'] then wordAction ((readList ws).map .push)
    else if w = ['P', 'U', 'L', 'L'] then wordAction (if ws.isEmpty then some .pull else none)
    else if w = ['R', 'E', 'S', 'E', 'T'] then wordAction (if ws.isEmpty then some .reset else none)
    else if w = ['D', 'R', 'A', 'I', 'N'] then
      (if ws.isEmpty then .ok (some .drain) else .error .badOperands)
    else .error .unknownOperation

/-- One line of a listing (30_encoding.md R45). -/
def readLine (cs : List Char) : Except ListingError (Option Action) := readWords (lexLine [] cs)

/-- The lines of a text, with the line under way in `l`. -/
def splitLines (l : List Char) : List Char → List (List Char)
  | [] => [l]
  | c :: cs => if c == '\n' then l :: splitLines [] cs else splitLines (l ++ [c]) cs

/-- The actions of a list of lines; the first line that is no operation rejects it. -/
def readLines : List (List Char) → Except ListingError (List Action)
  | [] => .ok []
  | l :: ls =>
    match readLine l, readLines ls with
    | .error e, _ => .error e
    | .ok _, .error e => .error e
    | .ok none, .ok as => .ok as
    | .ok (some a), .ok as => .ok (a :: as)

/-- A program: a list of host operations (30_encoding.md R45, 95_test_vectors.md section 7). -/
def readListing (cs : List Char) : Except ListingError (List Action) := readLines (splitLines [] cs)

/-- The host issues a program's actions in order. -/
def State.issue (as : List Action) (s : State) : State :=
  { s with port := s.port ++ as.map (fun a => ⟨.host, a⟩) }

/-! ## Writing -/

/-- The digit sign of a value below 16. -/
def hexDigit (n : Nat) : Char := digitSigns.getD n '0'

/-- A byte as two hex digits (R45). -/
def writeHexPair (b : Byte) : List Char := [hexDigit (b.toNat / 16), hexDigit (b.toNat % 16)]

/-- A number as hex with its prefix (R45). -/
def writeByte (b : Byte) : List Char := '0' :: 'x' :: writeHexPair b

/-- The bytes of a list and its closing bracket, separated by spaces (R45). -/
def writeBytes : List Byte → List Char
  | [] => [']']
  | [b] => writeHexPair b ++ [']']
  | b :: c :: bs => writeHexPair b ++ ' ' :: writeBytes (c :: bs)

/-- A command by its mnemonic where the table has one, else as a number (R45). -/
def writeCommand (c : Byte) : List Char :=
  match classify c with
  | .unknown c => writeByte c
  | n => commandSpelling n

/-- The line of an operation; a command-code row is no operation and has none (R45). -/
def writeLine : Instr → Option (List Char)
  | .encode a c d => some (['E', 'N', 'C', 'O', 'D', 'E', ' '] ++ writeByte a ++ [',', ' ']
      ++ writeCommand c ++ [',', ' ', '['] ++ writeBytes d)
  | .decode bs => some (['D', 'E', 'C', 'O', 'D', 'E', ' ', '['] ++ writeBytes bs)
  | .push k => some (['P', 'U', 'S', 'H', ' ', '['] ++ writeBytes k)
  | .pull => some ['P', 'U', 'L', 'L']
  | .reset => some ['R', 'E', 'S', 'E', 'T']
  | .ok => none
  | .error => none
  | .stop => none
  | .volume => none
  | .state => none
  | .price => none
  | .block => none
  | .linetest => none
  | .progI => none
  | .progW => none
  | .unblock => none
  | .zer => none
  | .progPrc => none
  | .tank => none
  | .unknown _ => none

end Sys2Proof.Machine
end

