-- ==== Sys2Proof/Machine/Session.lean ====
section
/-! DEFINITION. What a host sees when it drains (spec/30_encoding.md R45, 41_assembler.md R65, R69).

DRAIN as one function of the state, each of its PULLs an `exec .pull`, with everything it puts out in
order; and the host's loop of pushing a chunk and draining. `step` performs the same PULLs one by one
(Machine/Port.lean). -/

namespace Sys2Proof.Machine

/-- One thing a PULL did at the head of the queue: it dropped a byte with an event, or it returned a
packet (41_assembler.md R61, R62). -/
inductive LogEntry where
  | dropped (d : Diag)
  | yielded (k : Packet)
  deriving DecidableEq, Repr

/-- How far an entry moved the head of the queue: one byte, or the packet's frame (41_assembler.md
R61, R62). -/
def LogEntry.advance : LogEntry → Nat
  | .dropped _ => 1
  | .yielded k => frameLength k.data.length

/-- The packet of an entry, if it is one. -/
def LogEntry.packet? : LogEntry → Option Packet
  | .dropped _ => none
  | .yielded k => some k

/-- The event of an entry, if it is one. -/
def LogEntry.event? : LogEntry → Option Diag
  | .dropped d => some d
  | .yielded _ => none

/-- A host's view of a stretch of operations: the state after it, what the PULLs did in order, and
whether a PUSH overflowed. -/
structure Session where
  state : State
  log : List LogEntry
  overflow : Bool
  deriving DecidableEq, Repr

/-- The packets returned, in order (30_encoding.md R45). -/
def Session.packets (x : Session) : List Packet := x.log.filterMap LogEntry.packet?

/-- The FORMAT and CHECKSUM events, in order (30_encoding.md R45). -/
def Session.events (x : Session) : List Diag := x.log.filterMap LogEntry.event?

/-- `x` with earlier log entries before its own. -/
def Session.after (l : List LogEntry) (x : Session) : Session := { x with log := l ++ x.log }

/-- PULL repeated until one returns None, at most `n` times (30_encoding.md R45). -/
def drainLoop : Nat → State → Session
  | 0, s => ⟨s, [], false⟩
  | n + 1, s =>
    match exec .pull s with
    | .next t =>
      match t.out with
      | .pulled (some k) ds => (drainLoop n t).after (ds.map .dropped ++ [.yielded k])
      | .pulled none ds => ⟨t, ds.map .dropped, false⟩
      | _ => ⟨t, [], false⟩
    | _ => ⟨s, [], false⟩

/-- DRAIN (30_encoding.md R45). A PULL that returns a packet shortens `Q` (41_assembler.md R61), so
one PULL more than `Q` has bytes is always enough. -/
def drain (s : State) : Session := drainLoop (s.q.length + 1) s

/-- Whether an operation's diagnostic list holds an OVERFLOW event. -/
def overflowed : Output → Bool
  | .pushed ds => !ds.isEmpty
  | _ => false

/-- PUSH of one chunk, then DRAIN (41_assembler.md R65). -/
def pushDrain (k : List Byte) (s : State) : Session :=
  match exec (.push k) s with
  | .next t => { drain t with overflow := overflowed t.out }
  | _ => ⟨s, [], false⟩

/-- Each chunk pushed and drained in turn: run A of 41_assembler.md R69. With one chunk it is run B. -/
def feed : List (List Byte) → State → Session
  | [], s => ⟨s, [], false⟩
  | k :: ks, s =>
    let x := pushDrain k s
    let y := feed ks x.state
    ⟨y.state, x.log ++ y.log, x.overflow || y.overflow⟩

/-- The stream index at which entry `e` stands after the entries `before`, counted from the first
byte of the stream (41_assembler.md R70). -/
def headAfter (before : List LogEntry) : Nat := (before.map LogEntry.advance).sum

end Sys2Proof.Machine
end

