-- ==== Sys2Proof/Safety.lean ====
section
/-! DEFINITION. What a good state and a good run are, in the terms the statements use. -/

namespace Sys2Proof.Machine

/-- The queue as DECODE finds it Incomplete: fewer than 6 bytes, or an unfinished header
(spec/40_codec.md R54, 41_assembler.md R67). -/
def Unfinished (b : List Byte) : Prop :=
  b.length < 6 ∨ (byteAt b 0 = stx ∧ 6 ≤ lengthField b ∧ b.length < lengthField b)

/-- A byte sequence is, from its first byte to its last, one frame on an instance with parameters
`p`: the six conditions of 30_encoding.md R42 at the length of the sequence. -/
structure IsFrame (p : Params) (f : List Byte) : Prop where
  atLeastSix : 6 ≤ f.length
  start : byteAt f 0 = stx
  length : lengthField f = f.length
  stop : byteAt f (f.length - 1) = etx
  check : byteAt f (f.length - 2) = checksum (slice f 0 (f.length - 2))
  bound : f.length ≤ p.maxFrame
  address : byteAt f 2 ≠ 0#8

/-- What every step keeps: the parameters are legal (00_scope.md R7, R8), the queue is within its cap
(10_state.md R11), outputs are well formed (10_state.md R17, 40_codec.md R49), a PULL that returned
None left the queue unfinished (41_assembler.md R67), and a refused operation left the mark
(60_exceptions.md R78). -/
structure State.Inv (s : State) : Prop where
  legal : s.params.Legal
  withinCap : s.q.length ≤ s.params.bufferCap
  encoded : ∀ f, s.out = .frame f → IsFrame s.params f
  parsed : ∀ k, s.out = .parsed (.success k) → k.Valid s.params
  pulled : ∀ k ds, s.out = .pulled (some k) ds → k.Valid s.params
  drained : ∀ ds, s.out = .pulled none ds → Unfinished s.q
  marked : ∀ r, s.refusal = some r → s.refused = true ∧ s.out = .nothing

/-- A good run of `n` steps: it gets there, and no operation of it was refused (60_exceptions.md
R78). -/
def GoodRun (n : Nat) (s t : State) : Prop :=
  Host.Core.run Sys2Proof.core n s = .next t ∧ t.refused = false

end Sys2Proof.Machine
end

