-- ==== Sys2Proof/WellFormed.lean ====
section
/-! DEFINITION. Which instruction terms are well formed.

Two checks. CANONICAL: `UNKNOWN(c)` names only codes outside the table, since "`UNKNOWN(75)` cannot
arise: byte 75 always classifies as STATE" (spec/40_codec.md R48). CALLER'S DUTY: ENCODE's operands
meet the packet invariants its caller must have validated (10_state.md R17, 40_codec.md R49). The
machine runs terms that break the second too, and refuses them as R77 says. -/

namespace Sys2Proof

/-- `UNKNOWN(c)` with `c` outside the table of 30_encoding.md R39; every other term is canonical. -/
def Instr.canonical : Instr → Bool
  | .unknown c => !(commandTable.any fun row => row.2 == c)
  | _ => true

/-- The packet invariants on ENCODE's operands (10_state.md R17): `1 ≤ address ≤ 255` and
`len(data) ≤ MAX_FRAME − 6`. -/
def Instr.callerDuty (p : Params) : Instr → Bool
  | .encode a _ d => a != 0#8 && decide (d.length + 6 ≤ p.maxFrame)
  | _ => true

/-- A well-formed instruction on an instance with parameters `p`. -/
def Instr.wellFormed (p : Params) (i : Instr) : Bool := i.canonical && i.callerDuty p

end Sys2Proof
end

