-- ==== Sys2Proof/Certificates/Slice0/Obligations.lean ====
section
/-! DEFINITION. The statements for the provers, each with the rule of spec/ it formalises.

An operation's outputs are read in `State.out` and its refusal reason in `State.refusal`: places the
model chose (logs 3, 4) for what spec/10_state.md R16 and 60_exceptions.md R77 name. -/

open Sys2Proof Sys2Proof.Machine

/-! ## Encodings -/

/-- The port word of every canonical instruction reads back as that instruction. The places of the
operand ports are the model's choice (log 6); `op` values and command bytes are 30_encoding.md R39,
R44. -/
def Obligations.PortWordReadsBackAsInstruction : Prop :=
  ∀ i : Instr, i.canonical = true → decodeWord (encodeInstr i) = i

/-- 30_encoding.md R44: the four `op` values and the RESET signal select the five operations, and
every `op` value selects one. -/
def Obligations.OpFieldSelectsOperation : Prop :=
  (∀ (a c : Byte) (bs : List Byte),
    decodeWord (.operation 0b00#2 a c bs) = .encode a c bs ∧
    decodeWord (.operation 0b01#2 a c bs) = .decode bs ∧
    decodeWord (.operation 0b10#2 a c bs) = .push bs ∧
    decodeWord (.operation 0b11#2 a c bs) = .pull) ∧
  decodeWord .resetSignal = .reset ∧
  ∀ (op : BitVec 2) (a c : Byte) (bs : List Byte),
    decodeWord (.operation op a c bs) ∈ [.encode a c bs, .decode bs, .push bs, .pull]

/-- Opcode-table words written out from the table's own bit strings, decoded. The table gives `op`
rows and command rows one numbering, and telling them apart is the model's choice (log 8). -/
def Obligations.TableWordsDecode : Prop :=
  decodeTableWord 8 0b00 = some (.encode 0#8 0#8 []) ∧
  decodeTableWord 8 0b01 = some (.decode []) ∧
  decodeTableWord 8 0b10 = some (.push []) ∧
  decodeTableWord 8 0b11 = some .pull ∧
  decodeTableWord 0 0 = some .reset ∧
  decodeTableWord 8 0b01001011 = some .state ∧
  decodeTableWord 8 0b11000101 = some .tank ∧
  decodeTableWord 8 0b10101001 = some .progPrc ∧
  decodeTableWord 8 0b00011111 = some (.unknown 31#8)

/-- 30_encoding.md R39 and 40_codec.md R48: CLASSIFY gives each of the fourteen codes its name, every
other byte `UNKNOWN` of itself, and every name keeps the raw byte. -/
def Obligations.CommandBytesClassify : Prop :=
  classify 30#8 = .ok ∧ classify 37#8 = .error ∧ classify 47#8 = .stop ∧
  classify 69#8 = .volume ∧ classify 75#8 = .state ∧ classify 92#8 = .price ∧
  classify 105#8 = .block ∧ classify 106#8 = .linetest ∧ classify 112#8 = .progI ∧
  classify 117#8 = .progW ∧ classify 119#8 = .unblock ∧ classify 129#8 = .zer ∧
  classify 169#8 = .progPrc ∧ classify 197#8 = .tank ∧
  (∀ c : Byte, c.toNat ∉ [30, 37, 47, 69, 75, 92, 105, 106, 112, 117, 119, 129, 169, 197] →
    classify c = .unknown c) ∧
  ∀ c : Byte, (classify c).code = c

/-- The command-code rows complete: on an instance with legal parameters each puts out its own name,
UNKNOWN(c) the name CLASSIFY gives `c`, which is UNKNOWN(c) where `c` is outside the table, and nothing else of the state changes. Running a command code
as an instruction is the model's choice (log 7). -/
def Obligations.CommandRowsPutOutTheirNames : Prop :=
  ∀ s : State, s.params.Legal →
    exec .ok s = .next { s with out := .classified .ok, refusal := none } ∧
    exec .error s = .next { s with out := .classified .error, refusal := none } ∧
    exec .stop s = .next { s with out := .classified .stop, refusal := none } ∧
    exec .volume s = .next { s with out := .classified .volume, refusal := none } ∧
    exec .state s = .next { s with out := .classified .state, refusal := none } ∧
    exec .price s = .next { s with out := .classified .price, refusal := none } ∧
    exec .block s = .next { s with out := .classified .block, refusal := none } ∧
    exec .linetest s = .next { s with out := .classified .linetest, refusal := none } ∧
    exec .progI s = .next { s with out := .classified .progI, refusal := none } ∧
    exec .progW s = .next { s with out := .classified .progW, refusal := none } ∧
    exec .unblock s = .next { s with out := .classified .unblock, refusal := none } ∧
    exec .zer s = .next { s with out := .classified .zer, refusal := none } ∧
    exec .progPrc s = .next { s with out := .classified .progPrc, refusal := none } ∧
    exec .tank s = .next { s with out := .classified .tank, refusal := none } ∧
    (∀ c : Byte, exec (.unknown c) s = .next { s with out := .classified (classify c), refusal := none }) ∧
    ∀ c : Byte, (Instr.unknown c).canonical = true →
      exec (.unknown c) s = .next { s with out := .classified (.unknown c), refusal := none }

/-- 30_encoding.md R43: the numeric codes of results, reasons and events; kind 0 is
unused, and an OVERFLOW counts at least one byte. -/
def Obligations.ResultsHaveTheirCodes : Prop :=
  (∀ k, (ParseResult.success k).tag = 0#2) ∧
  (∀ e x, (ParseResult.checksumError e x).tag = 1#2) ∧
  (∀ w, (ParseResult.invalidFormat w).tag = 2#2) ∧
  ParseResult.incomplete.tag = 3#2 ∧
  FormatReason.badStx.code = 0#2 ∧ FormatReason.badEtx.code = 1#2 ∧
  FormatReason.badLength.code = 2#2 ∧ FormatReason.badAddress.code = 3#2 ∧
  (∀ e x, (Diag.checksum e x).kind = 1#2) ∧
  (∀ w, (Diag.format w).kind = 2#2) ∧
  (∀ n, (Diag.overflow n).kind = 3#2) ∧
  (∀ d : Diag, d.kind ≠ 0#2) ∧
  ∀ cap q n, Diag.overflow n ∈ capEvents cap q → 1 ≤ n

/-- A line written for an operation in the syntax of 30_encoding.md R45 reads back as that operation.
The writer's spelling of numbers is the model's choice (log 13). -/
def Obligations.ListingLineReadsBack : Prop :=
  ∀ (i : Instr) (line : List Char), writeLine i = some line →
    readLine line = .ok (some (.word (encodeInstr i)))

/-! ## Steps -/

/-- When the host's next action is a port word, one step is `exec` of the instruction on it, at the
state with that action taken off the port (20_memory.md R27, R29). The port is the model's own field
(log 5). -/
def Obligations.StepRunsTheDecodedInstruction : Prop :=
  ∀ (s : State) (w : PortWord) (rest : List Request),
    s.port = ⟨.host, .word w⟩ :: rest →
      step s = exec (decodeWord w) { s with port := rest }

/-- "The block never initiates anything" (00_scope.md R5): with nothing issued a step changes
nothing. -/
def Obligations.IdleStepChangesNothing : Prop :=
  ∀ s : State, s.port = [] → step s = .next s

/-- 60_exceptions.md R77, R78: an action of a second agent, or one that overlaps another, is refused
with CONCURRENT_USE, and the only effects are the mark and its reason. That such an action can stand
on the port at all is the model's choice (log 9), and so is that CONCURRENT_USE is the reason whatever
other reason of R77 applies too (log 16). -/
def Obligations.ConcurrentUseIsRefused : Prop :=
  ∀ (s : State) (r : Request) (rest : List Request),
    s.port = r :: rest → r.issuer ≠ .host →
      step s = .next { s with port := rest, out := .nothing, refusal := some .concurrentUse,
                              refused := true }

/-- DRAIN by steps is DRAIN by its definition (30_encoding.md R45): within one step more than the
queue has bytes, the block reaches the state `drain` gives, with the DRAIN taken off the port. How
DRAIN stands on the port is the model's choice (log 11). -/
def Obligations.DrainStepsReachTheDrainedState : Prop :=
  ∀ (s : State) (rest : List Request),
    s.params.Legal → s.port = ⟨.host, .drain⟩ :: rest →
      ∃ n, 1 ≤ n ∧ n ≤ s.q.length + 1 ∧
        Host.Core.run Sys2Proof.core n s = .next { (drain s).state with port := rest }

/-- The block has no traps and no stuck state (60_exceptions.md R79): from every state a step
answers a next state. -/
def Obligations.EveryStepAnswersANextState : Prop :=
  ∀ s : State, ∃ t, step s = .next t

/-! ## Frames of the instructions -/

/-- What an instruction writes (10_state.md R15, R16): never the parameters; `Q` only where the
instruction is PUSH, PULL or RESET; and the mark is never cleared (10_state.md R13). It also leaves
the list of actions still to be performed as it is: that list, `State.port`, is the model's own field
and no state of the spec (log 5, DESIGN CHOICE). -/
def Obligations.InstructionsWriteOnlyTheirState : Prop :=
  ∀ (i : Instr) (s t : State), exec i s = .next t →
    t.params = s.params ∧ t.port = s.port ∧
    ((∀ k, i ≠ .push k) → i ≠ .pull → i ≠ .reset → t.q = s.q) ∧
    (s.refused = true → t.refused = true) ∧
    (t.refused = true → s.refused = true ∨ t.refusal ≠ none)

/-- 60_exceptions.md R77: for each reason, exactly which instructions on which instances `exec`
refuses with it; the address is tested before the length (40_codec.md R49). BAD_PARAMETERS refuses
every instruction on such an instance: the model's reading (log 10). That it is the reason there for
an ENCODE with invalid operands too is the model's choice (log 16). -/
def Obligations.RefusalsAreExactlyThose : Prop :=
  ∀ (i : Instr) (s t : State), exec i s = .next t →
    (t.refusal = some .badParameters ↔ ¬ s.params.Legal) ∧
    (t.refusal = some .encodeAddressZero ↔ s.params.Legal ∧ ∃ c d, i = .encode 0#8 c d) ∧
    (t.refusal = some .encodeDataTooLong ↔ s.params.Legal ∧
      ∃ a c d, a ≠ 0#8 ∧ s.params.maxFrame < d.length + 6 ∧ i = .encode a c d) ∧
    t.refusal ≠ some .concurrentUse

/-- 60_exceptions.md R78: a refused operation has no outputs and no state change, and the sticky mark
is set. -/
def Obligations.RefusedOperationHasNoEffect : Prop :=
  ∀ (i : Instr) (s t : State) (r : RefuseReason), exec i s = .next t → t.refusal = some r →
    t = { s with out := .nothing, refusal := some r, refused := true }

/-- 10_state.md R12: ENCODE and DECODE are functions of their inputs and the parameters. Two states
with the same parameters give the same outputs and the same refusal, and each keeps its own queue. -/
def Obligations.CodecNeitherReadsNorWritesTheQueue : Prop :=
  ∀ (i : Instr) (s₁ s₂ t₁ t₂ : State),
    ((∃ a c d, i = .encode a c d) ∨ ∃ b, i = .decode b) →
    s₁.params = s₂.params → exec i s₁ = .next t₁ → exec i s₂ = .next t₂ →
      t₁.out = t₂.out ∧ t₁.refusal = t₂.refusal ∧ t₁.q = s₁.q ∧ t₂.q = s₂.q

/-! ## The codec -/

/-- 30_encoding.md R33, R38: ENCODE of a packet that meets the invariants completes, its output is
the frame laid out byte by byte as the table says, and nothing else of the state changes. -/
def Obligations.EncodeLaysOutTheFrame : Prop :=
  ∀ (s : State) (a c : Byte) (d : List Byte),
    s.params.Legal → a ≠ 0#8 → d.length + 6 ≤ s.params.maxFrame →
      ∃ f, exec (.encode a c d) s = .next { s with out := .frame f, refusal := none } ∧
        f.length = 6 + d.length ∧
        f[0]? = some 0x20#8 ∧
        f[1]?.map BitVec.toNat = some (6 + d.length) ∧
        f[2]? = some a ∧
        f[3]? = some c ∧
        (∀ i, i < d.length → f[4 + i]? = d[i]?) ∧
        f[4 + d.length]? = some (checksum (f.take (4 + d.length))) ∧
        f[5 + d.length]? = some 0x36#8

/-- ENCODE's refusals (40_codec.md R49, "The address is tested before the length"; 60_exceptions.md
R77, R78), on an instance with legal parameters. -/
def Obligations.EncodeRefusesInvalidPackets : Prop :=
  ∀ (s : State) (a c : Byte) (d : List Byte), s.params.Legal →
    exec (.encode 0#8 c d) s =
      .next { s with out := .nothing, refusal := some .encodeAddressZero, refused := true } ∧
    (a ≠ 0#8 → s.params.maxFrame < d.length + 6 →
      exec (.encode a c d) s =
        .next { s with out := .nothing, refusal := some .encodeDataTooLong, refused := true })

/-- 40_codec.md R53: DECODE of any finite sequence completes with one parse result, no refusal and no
other state change. -/
def Obligations.DecodeCompletesOnEverySequence : Prop :=
  ∀ (s : State) (b : List Byte), s.params.Legal →
    exec (.decode b) s = .next { s with out := .parsed (decodeFrame s.params b), refusal := none }

/-- 40_codec.md R50, R52: exactly when DECODE gives each result, and what it carries. `L` is byte 1. -/
def Obligations.DecodeReportsTheFirstFailedCondition : Prop :=
  ∀ (p : Params) (b : List Byte) (L : Nat), L = (byteAt b 1).toNat →
    (decodeFrame p b = .incomplete ↔
      b.length < 6 ∨ (byteAt b 0 = 0x20#8 ∧ 6 ≤ L ∧ b.length < L)) ∧
    (decodeFrame p b = .invalidFormat .badStx ↔ 6 ≤ b.length ∧ byteAt b 0 ≠ 0x20#8) ∧
    (decodeFrame p b = .invalidFormat .badEtx ↔
      6 ≤ b.length ∧ byteAt b 0 = 0x20#8 ∧ 6 ≤ L ∧ L ≤ b.length ∧ byteAt b (L - 1) ≠ 0x36#8) ∧
    (∀ e x, decodeFrame p b = .checksumError e x ↔
      6 ≤ b.length ∧ byteAt b 0 = 0x20#8 ∧ 6 ≤ L ∧ L ≤ b.length ∧ byteAt b (L - 1) = 0x36#8 ∧
      e = checksum (b.take (L - 2)) ∧ x = byteAt b (L - 2) ∧ e ≠ x) ∧
    (decodeFrame p b = .invalidFormat .badLength ↔
      6 ≤ b.length ∧ byteAt b 0 = 0x20#8 ∧
        (L < 6 ∨ (6 ≤ L ∧ L ≤ b.length ∧ byteAt b (L - 1) = 0x36#8 ∧
          checksum (b.take (L - 2)) = byteAt b (L - 2) ∧ p.maxFrame < L))) ∧
    (decodeFrame p b = .invalidFormat .badAddress ↔
      6 ≤ b.length ∧ byteAt b 0 = 0x20#8 ∧ 6 ≤ L ∧ L ≤ b.length ∧ byteAt b (L - 1) = 0x36#8 ∧
      checksum (b.take (L - 2)) = byteAt b (L - 2) ∧ L ≤ p.maxFrame ∧ byteAt b 2 = 0#8) ∧
    (∀ k, decodeFrame p b = .success k ↔
      6 ≤ b.length ∧ byteAt b 0 = 0x20#8 ∧ 6 ≤ L ∧ L ≤ b.length ∧ byteAt b (L - 1) = 0x36#8 ∧
      checksum (b.take (L - 2)) = byteAt b (L - 2) ∧ L ≤ p.maxFrame ∧ byteAt b 2 ≠ 0#8 ∧
      k.address = byteAt b 2 ∧ k.command = byteAt b 3 ∧ k.data = (b.take (L - 2)).drop 4)

/-- 40_codec.md R51: DECODE is determined by the length, bytes 0 and 1, and the bytes below index `L`
once they are all there; bytes at `L` and above never affect it. -/
def Obligations.DecodeReadsOnlyBelowTheFrameEnd : Prop :=
  ∀ (p : Params) (b b' : List Byte),
    b.length = b'.length → byteAt b 0 = byteAt b' 0 → byteAt b 1 = byteAt b' 1 →
    (6 ≤ lengthField b → lengthField b ≤ b.length →
      b.take (lengthField b) = b'.take (lengthField b)) →
      decodeFrame p b = decodeFrame p b' ∧
      (6 ≤ lengthField b → lengthField b ≤ b.length →
        decodeFrame p (b.take (lengthField b)) = decodeFrame p b)

/-- 40_codec.md R57 (an inference the spec marks as its own: "derived: from rule R50 and rule R51"): a
result other than Incomplete does not change when bytes follow. -/
def Obligations.DecodeIsMonotone : Prop :=
  ∀ (p : Params) (b t : List Byte), decodeFrame p b ≠ .incomplete →
    decodeFrame p (b ++ t) = decodeFrame p b

/-- 40_codec.md R55, R56 (inferences the spec marks as its own): what ENCODE puts out, with any bytes
after it, DECODE reads back as the same packet, for every address 1..255, every command byte and
every data sequence within the bound. -/
def Obligations.DecodeInvertsEncode : Prop :=
  ∀ (s : State) (a c : Byte) (d tail : List Byte),
    s.params.Legal → a ≠ 0#8 → d.length + 6 ≤ s.params.maxFrame →
      ∃ f t, exec (.encode a c d) s = .next t ∧ t.out = .frame f ∧
        exec (.decode (f ++ tail)) t = .next { t with out := .parsed (.success ⟨a, c, d⟩) }

/-- 30_encoding.md R40: a frame whose command byte is outside the table decodes to Success, never an
error; its packet keeps the byte exactly, and its name is `UNKNOWN` of it. -/
def Obligations.UnknownCommandIsNoError : Prop :=
  ∀ (s : State) (a c : Byte) (d : List Byte), s.params.Legal → a ≠ 0#8 →
    d.length + 6 ≤ s.params.maxFrame →
    c.toNat ∉ [30, 37, 47, 69, 75, 92, 105, 106, 112, 117, 119, 129, 169, 197] →
      ∃ k, exec (.decode (encodeFrame a c d)) s =
          .next { s with out := .parsed (.success k), refusal := none } ∧
        k.command = c ∧ k.name = .unknown c

/-- The other direction: a sequence DECODE accepts begins with exactly the frame ENCODE gives of the
packet, and the packet meets the invariants of 10_state.md R17. It is what 41_assembler.md R61 rests
on (an inference the spec marks as its own). -/
def Obligations.EncodeInvertsDecode : Prop :=
  ∀ (p : Params) (b : List Byte) (k : Packet), decodeFrame p b = .success k →
    encodeFrame k.address k.command k.data = b.take (6 + k.data.length) ∧
    6 + k.data.length ≤ b.length ∧ lengthField b = 6 + k.data.length ∧ k.Valid p

/-- 40_codec.md R47: the empty sequence gives 0 and one byte gives itself; and its corner cases
(inferences the spec marks as its own): CHECKSUM of a concatenation is the exclusive OR of the parts,
order does not matter, and two equal bytes cancel. The first three clauses leave one function only. -/
def Obligations.ChecksumIsExclusiveOr : Prop :=
  checksum [] = 0x00#8 ∧
  (∀ b : Byte, checksum [b] = b) ∧
  (∀ s t : List Byte, checksum (s ++ t) = checksum s ^^^ checksum t) ∧
  (∀ s t : List Byte, s.Perm t → checksum s = checksum t) ∧
  (∀ (b : Byte) (s : List Byte), checksum (b :: b :: s) = checksum s)

/-- 40_codec.md R47 (an inference the spec marks as its own): a frame's bytes up to its checksum byte,
that byte included, XOR to 0x00. -/
def Obligations.FrameBytesXorToZero : Prop :=
  ∀ (a c : Byte) (d : List Byte),
    checksum ((encodeFrame a c d).take (5 + d.length)) = 0x00#8

/-- 40_codec.md R47 (an inference the spec marks as its own): changing any one byte of a frame at an
index 2 .. L−2 always makes the checksum test fail. -/
def Obligations.SingleByteChangeIsDetected : Prop :=
  ∀ (p : Params) (a c : Byte) (d : List Byte) (i : Nat) (v : Byte),
    d.length + 6 ≤ 255 → 2 ≤ i → i ≤ 4 + d.length →
    byteAt (encodeFrame a c d) i ≠ v →
      ∃ e x, decodeFrame p ((encodeFrame a c d).set i v) = .checksumError e x ∧ e ≠ x

/-! ## The assembler -/

/-- 41_assembler.md R58, R59: PUSH appends the chunk; within the cap nothing is dropped and nothing
emitted; over it, exactly the oldest excess bytes are dropped and OVERFLOW carries their number. -/
def Obligations.PushAppendsAndCaps : Prop :=
  ∀ (s : State) (k : List Byte), s.params.Legal →
    (s.q.length + k.length ≤ s.params.bufferCap →
      exec (.push k) s = .next { s with q := s.q ++ k, out := .pushed [], refusal := none }) ∧
    (s.params.bufferCap < s.q.length + k.length →
      ∃ old new, s.q ++ k = old ++ new ∧ new.length = s.params.bufferCap ∧ 1 ≤ old.length ∧
        exec (.push k) s =
          .next { s with q := new, out := .pushed [.overflow old.length], refusal := none })

/-- 41_assembler.md R60, R62, R63, R64: PULL's loop, one pass at a time. On Success it removes the
frame's bytes, as many as ENCODE gives of the packet, and returns the packet; on Incomplete it leaves
`Q` as it is and returns None; on ChecksumError or InvalidFormat it drops exactly `Q[0]`, emits that
one event, and goes on as a PULL of the shorter queue. -/
def Obligations.PullFollowsItsLoop : Prop :=
  ∀ s : State, s.params.Legal →
    (∀ k, decodeFrame s.params s.q = .success k →
      exec .pull s = .next { s with
        q := s.q.drop (encodeFrame k.address k.command k.data).length,
        out := .pulled (some k) [], refusal := none }) ∧
    (decodeFrame s.params s.q = .incomplete →
      exec .pull s = .next { s with out := .pulled none [], refusal := none }) ∧
    ∀ (b : Byte) (q : List Byte) (d : Diag), s.q = b :: q →
      ((∃ e x, decodeFrame s.params s.q = .checksumError e x ∧ d = .checksum e x) ∨
        ∃ w, decodeFrame s.params s.q = .invalidFormat w ∧ d = .format w) →
        ∃ r ds rest,
          exec .pull { s with q := q } =
            .next { s with q := rest, out := .pulled r ds, refusal := none } ∧
          exec .pull s = .next { s with q := rest, out := .pulled r (d :: ds), refusal := none }

/-- 41_assembler.md R66 (an inference the spec marks as its own): one PULL emits at most
`max(0, len(Q) − 5)` events. -/
def Obligations.PullDropsAreBounded : Prop :=
  ∀ (s : State), s.params.Legal →
    ∃ r ds rest,
      exec .pull s = .next { s with q := rest, out := .pulled r ds, refusal := none } ∧
      ds.length ≤ s.q.length - 5

/-- 41_assembler.md R67 (an inference the spec marks as its own): after a PULL that returns None the
queue is Unfinished, so at most 254 bytes long; and after any PULL the queue is the old one less the
dropped bytes, one an event, and the returned packet's frame. -/
def Obligations.PullLeavesASuffix : Prop :=
  ∀ (s t : State) (r : Option Packet) (ds : List Diag), s.params.Legal →
    exec .pull s = .next t → t.out = .pulled r ds →
      (r = none → t.q = s.q.drop ds.length ∧ Unfinished t.q ∧ t.q.length ≤ 254) ∧
      ∀ k, r = some k → t.q = s.q.drop (ds.length + (6 + k.data.length)) ∧
        s.q.length = ds.length + (6 + k.data.length) + t.q.length

/-- 20_memory.md R30, 41_assembler.md R71 (inferences the spec marks as its own): PULL returns `k`
after dropping `n` bytes exactly when the window at `n` is the first that is no framing error and it
decodes to `k`. -/
def Obligations.PullReturnsTheEarliestFrame : Prop :=
  ∀ (s : State) (k : Packet) (n : Nat), s.params.Legal →
    ((∃ t ds, exec .pull s = .next t ∧ t.out = .pulled (some k) ds ∧ ds.length = n) ↔
      decodeFrame s.params (s.q.drop n) = .success k ∧
      ∀ m, m < n → (decodeFrame s.params (s.q.drop m)).tag = 1#2 ∨
        (decodeFrame s.params (s.q.drop m)).tag = 2#2)

/-- 41_assembler.md R70 (an inference the spec marks as its own): a PULL that has at least
`max(6, Q[1])` bytes to look at makes progress. -/
def Obligations.PullWithEnoughBytesProgresses : Prop :=
  ∀ (s : State), s.params.Legal → 6 ≤ s.q.length → lengthField s.q ≤ s.q.length →
    ∃ t, exec .pull s = .next t ∧ t.q.length < s.q.length

/-- 41_assembler.md R69 (an inference the spec marks as its own): from an empty queue, pushing a
stream in any chunks with a DRAIN after each, and pushing it as one chunk with one DRAIN, return the
same packets and events in the same order and end with the same queue, if neither overflows. -/
def Obligations.ChunkingNeverChangesWhatIsReceived : Prop :=
  ∀ (s : State) (chunks : List (List Byte)), s.params.Legal → s.q = [] →
    (feed chunks s).overflow = false → (feed [chunks.flatten] s).overflow = false →
      (feed chunks s).log = (feed [chunks.flatten] s).log ∧
      (feed chunks s).packets = (feed [chunks.flatten] s).packets ∧
      (feed chunks s).events = (feed [chunks.flatten] s).events ∧
      (feed chunks s).state.q = (feed [chunks.flatten] s).state.q

/-- The overflow condition of 41_assembler.md R69 is needed (90_conflicts.md C3): on some instance
some stream of two chunks is received differently from the same stream as one chunk. -/
def Obligations.OverflowBreaksChunking : Prop :=
  ∃ (s : State) (k₁ k₂ : List Byte), s.params.Legal ∧ s.q = [] ∧
    (feed [k₁, k₂] s).overflow = false ∧
    (feed [k₁ ++ k₂] s).overflow = true ∧
    (feed [k₁, k₂] s).packets ≠ (feed [k₁ ++ k₂] s).packets

/-- 20_memory.md R30 (an inference the spec marks as its own): the frames of any packets, one after
another, are received as exactly those packets, in order, with no event and nothing left. -/
def Obligations.FramesArriveInOrder : Prop :=
  ∀ (s : State) (ks : List Packet), s.params.Legal → s.q = [] →
    (∀ k ∈ ks, k.Valid s.params) →
    (ks.map fun k => encodeFrame k.address k.command k.data).flatten.length ≤ s.params.bufferCap →
      (feed [(ks.map fun k => encodeFrame k.address k.command k.data).flatten] s).packets = ks ∧
      (feed [(ks.map fun k => encodeFrame k.address k.command k.data).flatten] s).events = [] ∧
      (feed [(ks.map fun k => encodeFrame k.address k.command k.data).flatten] s).state.q = []

/-- 41_assembler.md R70 (an inference the spec marks as its own): in a drained stream with no
overflow, a valid frame at index `i` is received there if and only if no packet received at an
earlier index covers `i`, once the head has passed `i`. R70 takes the last clause for granted; a
false header before `i` can hold the head back (70_reset_and_hazards.md R85). -/
def Obligations.FrameIsLostOnlyToACoveringFrame : Prop :=
  ∀ (s : State) (pre post : List Byte) (k : Packet) (x : Session),
    s.params.Legal → s.q = [] → k.Valid s.params →
    x = feed [pre ++ encodeFrame k.address k.command k.data ++ post] s → x.overflow = false →
    pre.length < headAfter x.log →
      ((∃ l r, x.log = l ++ .yielded k :: r ∧ headAfter l = pre.length) ↔
        ¬ ∃ l k' r, x.log = l ++ .yielded k' :: r ∧ headAfter l < pre.length ∧
          pre.length < headAfter l + (6 + k'.data.length))

/-- 90_conflicts.md C2, 95_test_vectors.md A12: the stream of three valid frames is received as its
three packets. With the one byte at index 2, the first frame's address, changed from 0x01 to 0x03, two
of the three are lost and one packet that was never sent is returned; the third is recovered. -/
def Obligations.OneCorruptByteCanLoseTwoFrames : Prop :=
  ∃ clean : List Byte,
    clean = encodeFrame 0x01#8 0x1C#8 [0x20#8, 0x0D#8, 0x01#8, 0x4B#8, 0x11#8] ++
      encodeFrame 0x01#8 0x4B#8 [] ++ encodeFrame 0x02#8 0x45#8 [0x01#8, 0x02#8, 0x03#8] ∧
    (feed [clean] State.reset).log =
      [.yielded ⟨0x01#8, 0x1C#8, [0x20#8, 0x0D#8, 0x01#8, 0x4B#8, 0x11#8]⟩,
        .yielded ⟨0x01#8, 0x4B#8, []⟩,
        .yielded ⟨0x02#8, 0x45#8, [0x01#8, 0x02#8, 0x03#8]⟩] ∧
    byteAt clean 2 = 0x01#8 ∧
    (feed [clean.set 2 0x03#8] State.reset).log =
      [.dropped (.checksum 0x42#8 0x40#8), .dropped (.format .badStx), .dropped (.format .badStx),
        .dropped (.format .badStx),
        .yielded ⟨0x01#8, 0x4B#8, [0x11#8, 0x40#8, 0x36#8, 0x20#8, 0x06#8, 0x01#8, 0x4B#8]⟩,
        .yielded ⟨0x02#8, 0x45#8, [0x01#8, 0x02#8, 0x03#8]⟩]

/-! ## Hazards -/

/-- 70_reset_and_hazards.md R85 (an inference the spec marks as its own): behind a false header that
asks for more bytes than are held, PULL returns None and drops nothing, whatever stands behind it. -/
def Obligations.FalseHeaderHoldsTheQueue : Prop :=
  ∀ (s : State) (l : Byte) (behind : List Byte), s.params.Legal →
    s.q = 0x20#8 :: l :: behind → 6 ≤ l.toNat → s.q.length < l.toNat →
      exec .pull s = .next { s with out := .pulled none [], refusal := none }

/-- 70_reset_and_hazards.md R86 (an inference the spec marks as its own): the wait is bounded. Once
six bytes are held and the head is Incomplete, there is one number of at most 249, which fits in the
queue beside them, such that DECODE judges the head whenever that many or more bytes follow. -/
def Obligations.FalseHeaderWaitIsBounded : Prop :=
  ∀ (p : Params) (b : List Byte), p.Legal → 6 ≤ b.length → decodeFrame p b = .incomplete →
    ∃ n, n ≤ 249 ∧ b.length + n ≤ p.bufferCap ∧
      ∀ more : List Byte, n ≤ more.length → decodeFrame p (b ++ more) ≠ .incomplete

/-! ## Reset, the parameters, the mark, and invariants -/

/-- 70_reset_and_hazards.md R82: RESET empties `Q` and changes nothing else of the block: not the
parameters, and not the mark. -/
def Obligations.ResetEmptiesTheQueue : Prop :=
  ∀ s : State, s.params.Legal →
    exec .reset s = .next { s with q := [], out := .nothing, refusal := none }

/-- 10_state.md R19 with 00_scope.md R7, R8: after reset `Q` is empty, the mark is clear, MAX_FRAME is
255 and BUFFER_CAP is 1024, and the legal ranges are 6..255 and 255 upwards; and a later RESET, on any
instance with legal parameters, empties `Q`, keeps the configured values and does not clear the mark. -/
def Obligations.StateAfterReset : Prop :=
  State.reset.q = [] ∧ State.reset.refused = false ∧
  State.reset.params.maxFrame = 255 ∧ State.reset.params.bufferCap = 1024 ∧
  (∀ p : Params, p.Legal ↔ 6 ≤ p.maxFrame ∧ p.maxFrame ≤ 255 ∧ 255 ≤ p.bufferCap) ∧
  ∀ s : State, s.params.Legal →
    ∃ t, exec .reset s = .next t ∧ t.q = [] ∧ t.refused = s.refused ∧ t.params = s.params

/-- 10_state.md R15, 00_scope.md R9: no run changes the parameters. -/
def Obligations.ParametersAreFixedForLife : Prop :=
  ∀ (n : Nat) (s t : State), Host.Core.run Sys2Proof.core n s = .next t → t.params = s.params

/-- 10_state.md R13: the mark is false at reset, a refused operation sets it, and once set it stays set
along every run, RESET included. -/
def Obligations.RefusedMarkIsSticky : Prop :=
  State.reset.refused = false ∧
  (∀ (i : Instr) (s t : State), exec i s = .next t → t.refusal ≠ none → t.refused = true) ∧
  ∀ (n : Nat) (s t : State), s.refused = true → Host.Core.run Sys2Proof.core n s = .next t →
    t.refused = true

/-- The invariant holds after reset, and of every instance with legal parameters as it starts. The
values of the model's own fields there are its choice (log 12). -/
def Obligations.BootIsGood : Prop :=
  State.reset.Inv ∧ ∀ p : Params, p.Legal → (State.boot p).Inv

/-- Every step keeps the invariant `State.Inv`, from every state that has it: legal parameters, the
queue within its cap (10_state.md R11), outputs that meet the packet and frame invariants (R17), an
Unfinished queue after a PULL that returned None (41_assembler.md R67), and the mark after a refusal
(60_exceptions.md R78). R11 and R67 are inferences the spec marks as its own. -/
def Obligations.EveryStepKeepsTheInvariant : Prop :=
  ∀ s t : State, s.Inv → step s = .next t → t.Inv

/-- A host that keeps its duties is never refused (60_exceptions.md R77: "exactly these uses"): from
an unmarked state with legal parameters, if every action still to be performed is the host's own and
every port word on it is a well-formed instruction, every run of every length is a good run. -/
def Obligations.DutifulHostIsNeverRefused : Prop :=
  ∀ (n : Nat) (s : State), s.params.Legal → s.refused = false →
    (∀ r ∈ s.port, r.issuer = .host ∧
      ∀ w, r.action = .word w → (decodeWord w).wellFormed s.params = true) →
      ∃ t, GoodRun n s t
end

