-- ==== Sys2Proof/Laws/State.lean ====
section
/-! SUPPORT. Each field after each update of State. -/

namespace Sys2Proof.Machine

section Answer
variable (o : Output) (s : State)
@[simp] theorem State.answer_q : (s.answer o).q = s.q := rfl
@[simp] theorem State.answer_refused : (s.answer o).refused = s.refused := rfl
@[simp] theorem State.answer_params : (s.answer o).params = s.params := rfl
@[simp] theorem State.answer_refusal : (s.answer o).refusal = none := rfl
@[simp] theorem State.answer_out : (s.answer o).out = o := rfl
@[simp] theorem State.answer_port : (s.answer o).port = s.port := rfl
end Answer

section MarkRefused
variable (r : RefuseReason) (s : State)
@[simp] theorem State.markRefused_q : (s.markRefused r).q = s.q := rfl
@[simp] theorem State.markRefused_refused : (s.markRefused r).refused = true := rfl
@[simp] theorem State.markRefused_params : (s.markRefused r).params = s.params := rfl
@[simp] theorem State.markRefused_refusal : (s.markRefused r).refusal = some r := rfl
@[simp] theorem State.markRefused_out : (s.markRefused r).out = .nothing := rfl
@[simp] theorem State.markRefused_port : (s.markRefused r).port = s.port := rfl
end MarkRefused

section SetQueue
variable (v : List Byte) (s : State)
@[simp] theorem State.setQueue_q : (s.setQueue v).q = v := rfl
@[simp] theorem State.setQueue_refused : (s.setQueue v).refused = s.refused := rfl
@[simp] theorem State.setQueue_params : (s.setQueue v).params = s.params := rfl
@[simp] theorem State.setQueue_refusal : (s.setQueue v).refusal = s.refusal := rfl
@[simp] theorem State.setQueue_out : (s.setQueue v).out = s.out := rfl
@[simp] theorem State.setQueue_port : (s.setQueue v).port = s.port := rfl
end SetQueue

section SetPort
variable (v : List Request) (s : State)
@[simp] theorem State.setPort_q : (s.setPort v).q = s.q := rfl
@[simp] theorem State.setPort_refused : (s.setPort v).refused = s.refused := rfl
@[simp] theorem State.setPort_params : (s.setPort v).params = s.params := rfl
@[simp] theorem State.setPort_refusal : (s.setPort v).refusal = s.refusal := rfl
@[simp] theorem State.setPort_out : (s.setPort v).out = s.out := rfl
@[simp] theorem State.setPort_port : (s.setPort v).port = v := rfl
end SetPort

section Issue
variable (as : List Action) (s : State)
@[simp] theorem State.issue_q : (s.issue as).q = s.q := rfl
@[simp] theorem State.issue_params : (s.issue as).params = s.params := rfl
@[simp] theorem State.issue_port :
    (s.issue as).port = s.port ++ as.map (fun a => ⟨.host, a⟩) := rfl
end Issue

section Boot
variable (p : Params)
@[simp] theorem State.boot_q : (State.boot p).q = [] := rfl
@[simp] theorem State.boot_refused : (State.boot p).refused = false := rfl
@[simp] theorem State.boot_params : (State.boot p).params = p := rfl
@[simp] theorem State.boot_refusal : (State.boot p).refusal = none := rfl
@[simp] theorem State.boot_out : (State.boot p).out = .nothing := rfl
@[simp] theorem State.boot_port : (State.boot p).port = [] := rfl
end Boot

end Sys2Proof.Machine
end

