-- ==== Sys2Proof/Laws/Ops.lean ====
section
/-! SUPPORT. What each shared operation over State can do. -/

namespace Sys2Proof.Machine

/-- An operation on an instance with legal parameters is its body. -/
theorem operate_legal {s : State} (h : s.params.Legal) (body : Result) : operate s body = body :=
  if_pos h

/-- An operation on an instance with illegal parameters is refused. -/
theorem operate_illegal {s : State} (h : ¬ s.params.Legal) (body : Result) :
    operate s body = .next (s.markRefused .badParameters) :=
  if_neg h

/-- Everything an operation can answer: a refusal of the instance, or its body. -/
theorem operate_next {s t : State} {body : Result} (h : operate s body = .next t) :
    (¬ s.params.Legal ∧ t = s.markRefused .badParameters) ∨ (s.params.Legal ∧ body = .next t) := by
  by_cases hl : s.params.Legal
  · exact .inr ⟨hl, by rwa [operate_legal hl] at h⟩
  · rw [operate_illegal hl, Host.Outcome.next.injEq] at h
    exact .inl ⟨hl, h.symm⟩

/-- The cap never leaves more than itself (41_assembler.md R59). -/
theorem capKeep_length_le (cap : Nat) (q : List Byte) : (capKeep cap q).length ≤ cap := by
  rw [capKeep, List.length_drop]; omega

/-- Within the cap nothing is dropped: "Exceeds" is strict (41_assembler.md R59). -/
theorem capKeep_within {cap : Nat} {q : List Byte} (h : q.length ≤ cap) : capKeep cap q = q := by
  rw [capKeep, Nat.sub_eq_zero_of_le h, List.drop_zero]

/-- Within the cap nothing is emitted (41_assembler.md R59). -/
theorem capEvents_within {cap : Nat} {q : List Byte} (h : q.length ≤ cap) : capEvents cap q = [] :=
  if_neg (Nat.not_lt.2 h)

/-- Over the cap there is one OVERFLOW event (41_assembler.md R59). -/
theorem capEvents_over {cap : Nat} {q : List Byte} (h : cap < q.length) :
    capEvents cap q = [.overflow (q.length - cap)] :=
  if_pos h

end Sys2Proof.Machine
end

