-- ==== Sys2Proof/Laws/Codec.lean ====
section
/-! SUPPORT. One lemma per step of DECODE, and the parts of a frame. -/

namespace Sys2Proof.Machine

/-! ## Sequences -/

theorem byteAt_lt {s : List Byte} {i : Nat} (h : i < s.length) : byteAt s i = s[i] := by
  simp [byteAt, h]

theorem byteAt_append_left {s : List Byte} {i : Nat} (h : i < s.length) (t : List Byte) :
    byteAt (s ++ t) i = byteAt s i := by
  simp [byteAt, List.getElem?_append_left h]

theorem byteAt_append_right {s : List Byte} {i : Nat} (h : s.length ≤ i) (t : List Byte) :
    byteAt (s ++ t) i = byteAt t (i - s.length) := by
  simp [byteAt, List.getElem?_append_right h]

theorem byteAt_take {s : List Byte} {i n : Nat} (h : i < n) : byteAt (s.take n) i = byteAt s i := by
  simp [byteAt, h]

theorem slice_zero (s : List Byte) (n : Nat) : slice s 0 n = s.take n := rfl

theorem slice_append_left {s : List Byte} {a n : Nat} (h : n ≤ s.length) (t : List Byte) :
    slice (s ++ t) a n = slice s a n := by
  rcases Nat.le_total n a with hna | hna
  · simp [slice, Nat.sub_eq_zero_of_le hna]
  · rw [slice, slice, List.drop_append_of_le_length (by omega),
      List.take_append_of_le_length (by simp; omega)]

theorem slice_length {s : List Byte} {a b : Nat} (h : b ≤ s.length) :
    (slice s a b).length = b - a := by
  simp only [slice, List.length_take, List.length_drop]; omega

theorem lengthField_lt (b : List Byte) : lengthField b < 256 := (byteAt b 1).isLt

/-! ## DECODE, one step at a time (40_codec.md R50) -/

section Decode
variable {p : Params} {b : List Byte}

theorem decodeFrame_short (h : b.length < 6) : decodeFrame p b = .incomplete := if_pos h

theorem decodeFrame_badStx (h : 6 ≤ b.length) (h0 : byteAt b 0 ≠ stx) :
    decodeFrame p b = .invalidFormat .badStx := by
  rw [decodeFrame, if_neg (by omega), if_pos h0]

theorem decodeFrame_shortLength (h : 6 ≤ b.length) (h0 : byteAt b 0 = stx)
    (hL : lengthField b < 6) : decodeFrame p b = .invalidFormat .badLength := by
  rw [decodeFrame, if_neg (by omega), if_neg (by simp [h0]), if_pos hL]

theorem decodeFrame_waiting (h0 : byteAt b 0 = stx) (hL : 6 ≤ lengthField b)
    (h : b.length < lengthField b) : decodeFrame p b = .incomplete := by
  by_cases h6 : b.length < 6
  · exact decodeFrame_short h6
  · rw [decodeFrame, if_neg h6, if_neg (by simp [h0]), if_neg (by omega), if_pos h]

theorem decodeFrame_body (h0 : byteAt b 0 = stx) (hL : 6 ≤ lengthField b)
    (h : lengthField b ≤ b.length) : decodeFrame p b = decodeBody p b (lengthField b) := by
  rw [decodeFrame, if_neg (by omega), if_neg (by simp [h0]), if_neg (by omega), if_neg (by omega)]

/-- Everything DECODE's header steps can do: each case with the conditions that lead to it. -/
theorem decodeFrame_cases (p : Params) (b : List Byte) :
    (b.length < 6 ∧ decodeFrame p b = .incomplete) ∨
    (6 ≤ b.length ∧ byteAt b 0 ≠ stx ∧ decodeFrame p b = .invalidFormat .badStx) ∨
    (6 ≤ b.length ∧ byteAt b 0 = stx ∧ lengthField b < 6 ∧
      decodeFrame p b = .invalidFormat .badLength) ∨
    (6 ≤ b.length ∧ byteAt b 0 = stx ∧ 6 ≤ lengthField b ∧ b.length < lengthField b ∧
      decodeFrame p b = .incomplete) ∨
    (6 ≤ b.length ∧ byteAt b 0 = stx ∧ 6 ≤ lengthField b ∧ lengthField b ≤ b.length ∧
      decodeFrame p b = decodeBody p b (lengthField b)) := by
  by_cases h6 : b.length < 6
  · exact .inl ⟨h6, decodeFrame_short h6⟩
  have h6' : 6 ≤ b.length := by omega
  by_cases h0 : byteAt b 0 = stx
  · by_cases hL : lengthField b < 6
    · exact .inr (.inr (.inl ⟨h6', h0, hL, decodeFrame_shortLength h6' h0 hL⟩))
    · by_cases hw : b.length < lengthField b
      · exact .inr (.inr (.inr (.inl ⟨h6', h0, by omega, hw, decodeFrame_waiting h0 (by omega) hw⟩)))
      · exact .inr (.inr (.inr (.inr
          ⟨h6', h0, by omega, by omega, decodeFrame_body h0 (by omega) (by omega)⟩)))
  · exact .inr (.inl ⟨h6', h0, decodeFrame_badStx h6' h0⟩)

/-- Everything DECODE's body can do: each case with the conditions that lead to it. -/
theorem decodeBody_cases (p : Params) (b : List Byte) (L : Nat) :
    (byteAt b (L - 1) ≠ etx ∧ decodeBody p b L = .invalidFormat .badEtx) ∨
    (byteAt b (L - 1) = etx ∧ checksum (slice b 0 (L - 2)) ≠ byteAt b (L - 2) ∧
      decodeBody p b L = .checksumError (checksum (slice b 0 (L - 2))) (byteAt b (L - 2))) ∨
    (byteAt b (L - 1) = etx ∧ checksum (slice b 0 (L - 2)) = byteAt b (L - 2) ∧
      p.maxFrame < L ∧ decodeBody p b L = .invalidFormat .badLength) ∨
    (byteAt b (L - 1) = etx ∧ checksum (slice b 0 (L - 2)) = byteAt b (L - 2) ∧
      L ≤ p.maxFrame ∧ byteAt b 2 = 0#8 ∧ decodeBody p b L = .invalidFormat .badAddress) ∨
    (byteAt b (L - 1) = etx ∧ checksum (slice b 0 (L - 2)) = byteAt b (L - 2) ∧
      L ≤ p.maxFrame ∧ byteAt b 2 ≠ 0#8 ∧ decodeBody p b L = .success (packetOf b L)) := by
  by_cases h1 : byteAt b (L - 1) = etx <;>
    by_cases h2 : checksum (slice b 0 (L - 2)) = byteAt b (L - 2) <;>
    by_cases h3 : p.maxFrame < L <;>
    by_cases h4 : byteAt b 2 = 0#8 <;>
    simp [decodeBody, h1, h2, h3, h4] <;> omega

end Decode

/-! ## The parts of a frame (30_encoding.md R33) -/

section Frame
variable (a c : Byte) (d : List Byte)

@[simp] theorem frameHeader_length : (frameHeader a c d).length = 4 + d.length := by
  simp [frameHeader]; omega

@[simp] theorem encodeFrame_length : (encodeFrame a c d).length = 6 + d.length := by
  simp [encodeFrame]; omega

theorem encodeFrame_stx : byteAt (encodeFrame a c d) 0 = stx := rfl
theorem encodeFrame_address : byteAt (encodeFrame a c d) 2 = a := rfl
theorem encodeFrame_command : byteAt (encodeFrame a c d) 3 = c := rfl

/-- `L` fits in its byte (40_codec.md R49). -/
theorem encodeFrame_lengthField {d : List Byte} (h : d.length + 6 ≤ 255) :
    lengthField (encodeFrame a c d) = 6 + d.length := by
  change (BitVec.ofNat 8 (6 + d.length)).toNat = _
  rw [BitVec.toNat_ofNat, Nat.mod_eq_of_lt (by omega)]

theorem encodeFrame_take_header : (encodeFrame a c d).take (4 + d.length) = frameHeader a c d := by
  rw [encodeFrame, List.take_append_of_le_length (by simp), List.take_of_length_le (by simp)]

theorem encodeFrame_check : byteAt (encodeFrame a c d) (4 + d.length) =
    checksum (frameHeader a c d) := by
  rw [encodeFrame, byteAt_append_right (by simp)]; simp [byteAt]

theorem encodeFrame_etx : byteAt (encodeFrame a c d) (5 + d.length) = etx := by
  rw [encodeFrame, byteAt_append_right (by simp), frameHeader_length,
    show 5 + d.length - (4 + d.length) = 1 by omega]
  rfl

end Frame

/-! ## The meanings on an instance with legal parameters -/

section Meanings
variable {s : State} (h : s.params.Legal)
include h

theorem execEncode_valid {a : Byte} (c : Byte) {d : List Byte} (ha : a ≠ 0#8)
    (hd : d.length + 6 ≤ s.params.maxFrame) :
    execEncode a c d s = .next (s.answer (.frame (encodeFrame a c d))) := by
  simp [execEncode, operate_legal h, encodeRefusal, ha,
    show ¬ s.params.maxFrame - 6 < d.length by omega]

theorem execEncode_addressZero (c : Byte) (d : List Byte) :
    execEncode 0#8 c d s = .next (s.markRefused .encodeAddressZero) := by
  simp [execEncode, operate_legal h, encodeRefusal, refuse]

theorem execEncode_tooLong {a : Byte} (c : Byte) {d : List Byte} (ha : a ≠ 0#8)
    (hd : s.params.maxFrame < d.length + 6) :
    execEncode a c d s = .next (s.markRefused .encodeDataTooLong) := by
  simp [execEncode, operate_legal h, encodeRefusal, ha, refuse,
    show s.params.maxFrame - 6 < d.length by have := h.1; omega]

theorem execDecode_legal (b : List Byte) :
    execDecode b s = .next (s.answer (.parsed (decodeFrame s.params b))) :=
  operate_legal h _

end Meanings

end Sys2Proof.Machine
end

