-- ==== Sys2Proof/Laws/Assembler.lean ====
section
/-! SUPPORT. One lemma per pass of PULL's loop, and the meanings of the assembler. -/

namespace Sys2Proof.Machine

section Emit
variable (d : Diag) (r : Pulled)
@[simp] theorem Pulled.emit_packet : (r.emit d).packet = r.packet := rfl
@[simp] theorem Pulled.emit_events : (r.emit d).events = d :: r.events := rfl
@[simp] theorem Pulled.emit_rest : (r.emit d).rest = r.rest := rfl
end Emit

section Pull
variable {p : Params} {q : List Byte}

theorem pullQueue_success {k : Packet} (h : decodeFrame p q = .success k) :
    pullQueue p q = ⟨some k, [], q.drop (frameLength k.data.length)⟩ := by
  cases q with
  | nil => cases h
  | cons b q => simp [pullQueue, h]

theorem pullQueue_incomplete (h : decodeFrame p q = .incomplete) : pullQueue p q = ⟨none, [], q⟩ := by
  cases q with
  | nil => rfl
  | cons b q => simp [pullQueue, h]

theorem pullQueue_checksumError {b e x : Byte} (h : decodeFrame p (b :: q) = .checksumError e x) :
    pullQueue p (b :: q) = (pullQueue p q).emit (.checksum e x) := by
  simp [pullQueue, h]

theorem pullQueue_invalidFormat {b : Byte} {w : FormatReason}
    (h : decodeFrame p (b :: q) = .invalidFormat w) :
    pullQueue p (b :: q) = (pullQueue p q).emit (.format w) := by
  simp [pullQueue, h]

/-- The event of a framing error, if the result is one (41_assembler.md R64). -/
def ParseResult.event? : ParseResult → Option Diag
  | .checksumError e x => some (.checksum e x)
  | .invalidFormat w => some (.format w)
  | .success _ => none
  | .incomplete => none

/-- Both framing errors at once: one byte dropped, one event (41_assembler.md R62, R64). -/
theorem pullQueue_error {b : Byte} {d : Diag} (h : (decodeFrame p (b :: q)).event? = some d) :
    pullQueue p (b :: q) = (pullQueue p q).emit d := by
  cases hr : decodeFrame p (b :: q) <;> simp_all [ParseResult.event?, pullQueue]

/-- The induction of every fact about PULL: the loop ends at the head, or drops one byte
(41_assembler.md R60). -/
theorem pullQueue_induction {motive : List Byte → Prop} (p : Params)
    (incomplete : ∀ q, decodeFrame p q = .incomplete → motive q)
    (success : ∀ q k, decodeFrame p q = .success k → motive q)
    (error : ∀ b q d, (decodeFrame p (b :: q)).event? = some d → motive q → motive (b :: q)) :
    ∀ q, motive q := by
  intro q
  induction q with
  | nil => exact incomplete [] rfl
  | cons b q ih =>
    cases hr : decodeFrame p (b :: q) with
    | success k => exact success _ k hr
    | incomplete => exact incomplete _ hr
    | checksumError e x => exact error b q (.checksum e x) (by rw [hr]; rfl) ih
    | invalidFormat w => exact error b q (.format w) (by rw [hr]; rfl) ih

end Pull

section Meanings
variable {s : State} (h : s.params.Legal)
include h

theorem execPush_legal (k : List Byte) :
    execPush k s = .next ((s.setQueue (capKeep s.params.bufferCap (s.q ++ k))).answer
      (.pushed (capEvents s.params.bufferCap (s.q ++ k)))) :=
  operate_legal h _

theorem execPull_legal :
    execPull s = .next ((s.setQueue (pullQueue s.params s.q).rest).answer
      (.pulled (pullQueue s.params s.q).packet (pullQueue s.params s.q).events)) :=
  operate_legal h _

end Meanings

end Sys2Proof.Machine
end

