-- ==== Sys2Proof/Laws/Listing.lean ====
section
/-! SUPPORT. The words the writer of the textual syntax makes, read back (spec/30_encoding.md R45). -/

namespace Sys2Proof.Machine

/-- A digit sign has the value it is written for. -/
theorem digitValue_hexDigit : ∀ n : Fin 16, digitValue (hexDigit n) = some n.val := by
  decide +kernel

/-- A byte of a list. -/
theorem readHexPair_writeHexPair (b : Byte) : readHexPair (writeHexPair b) = some b := by
  have every : ∀ b : Byte, readHexPair (writeHexPair b) = some b := by decide +kernel
  exact every b

/-- A number. -/
theorem readByte_writeByte (b : Byte) : readByte (writeByte b) = some b := by
  have every : ∀ b : Byte, readByte (writeByte b) = some b := by decide +kernel
  exact every b

/-- A command, by its mnemonic or as a number. -/
theorem readCommand_writeCommand (b : Byte) : readCommand (writeCommand b) = some b := by
  have every : ∀ b : Byte, readCommand (writeCommand b) = some b := by decide +kernel
  exact every b

/-- A character that neither ends a word nor starts a comment. -/
def inWord (c : Char) : Bool := c != ';' && !isBlank c && !isMark c

/-- The lexer takes a word's characters together. -/
theorem lexLine_word (w v cs : List Char) (h : v.all inWord = true) :
    lexLine w (v ++ cs) = lexLine (w ++ v) cs := by
  induction v generalizing w with
  | nil => simp
  | cons c v ih =>
    simp only [List.all_cons, inWord, Bool.and_eq_true, bne_iff_ne, Bool.not_eq_true'] at h
    obtain ⟨⟨⟨hsemi, hblank⟩, hmark⟩, hrest⟩ := h
    simpa [lexLine, hsemi, hblank, hmark] using ih (w ++ [c]) hrest

theorem writeHexPair_inWord (b : Byte) : (writeHexPair b).all inWord = true := by
  have every : ∀ b : Byte, (writeHexPair b).all inWord = true := by decide +kernel
  exact every b

theorem writeByte_inWord (b : Byte) : (writeByte b).all inWord = true := by
  have every : ∀ b : Byte, (writeByte b).all inWord = true := by decide +kernel
  exact every b

theorem writeCommand_inWord (b : Byte) : (writeCommand b).all inWord = true := by
  have every : ∀ b : Byte, (writeCommand b).all inWord = true := by decide +kernel
  exact every b

end Sys2Proof.Machine
end

