-- ==== Sys2Proof/Laws/PerInstr.lean ====
section
/-! SUPPORT. The family TableRow: what spec/opcode_table.json gives each row. An instruction's port
word carries its row's bits: the `op` value of the four operations (30_encoding.md R44), the signal
for RESET, the command byte of the fourteen codes (R39), and the raw byte of UNKNOWN (R40). -/

namespace Sys2Proof.Laws.TableRow

/-- The `op` value of a port word, none on the other inputs. -/
def opBits : PortWord → Option Nat
  | .operation op _ _ _ => some op.toNat
  | .resetSignal => none
  | .commandByte _ => none

/-- The command byte of a port word, none on the other inputs. -/
def commandBits : PortWord → Option Nat
  | .operation _ _ _ _ => none
  | .resetSignal => none
  | .commandByte c => some c.toNat

/-- The row's "match" value, in the bits its "format" names. -/
def Statement : Instr → Prop
  | .encode a c d => opBits (encodeInstr (.encode a c d)) = some 0
  | .decode bs => opBits (encodeInstr (.decode bs)) = some 1
  | .push k => opBits (encodeInstr (.push k)) = some 2
  | .pull => opBits (encodeInstr .pull) = some 3
  | .reset => encodeInstr .reset = .resetSignal
  | .ok => commandBits (encodeInstr .ok) = some 30
  | .error => commandBits (encodeInstr .error) = some 37
  | .stop => commandBits (encodeInstr .stop) = some 47
  | .volume => commandBits (encodeInstr .volume) = some 69
  | .state => commandBits (encodeInstr .state) = some 75
  | .price => commandBits (encodeInstr .price) = some 92
  | .block => commandBits (encodeInstr .block) = some 105
  | .linetest => commandBits (encodeInstr .linetest) = some 106
  | .progI => commandBits (encodeInstr .progI) = some 112
  | .progW => commandBits (encodeInstr .progW) = some 117
  | .unblock => commandBits (encodeInstr .unblock) = some 119
  | .zer => commandBits (encodeInstr .zer) = some 129
  | .progPrc => commandBits (encodeInstr .progPrc) = some 169
  | .tank => commandBits (encodeInstr .tank) = some 197
  | .unknown c => commandBits (encodeInstr (.unknown c)) = some c.toNat

theorem encode (a c : Byte) (d : List Byte) : Statement (.encode a c d) := rfl
theorem decode (bs : List Byte) : Statement (.decode bs) := rfl
theorem push (k : List Byte) : Statement (.push k) := rfl
theorem pull : Statement .pull := rfl
theorem reset : Statement .reset := rfl
theorem ok : Statement .ok := rfl
theorem error : Statement .error := rfl
theorem stop : Statement .stop := rfl
theorem volume : Statement .volume := rfl
theorem state : Statement .state := rfl
theorem price : Statement .price := rfl
theorem block : Statement .block := rfl
theorem linetest : Statement .linetest := rfl
theorem progI : Statement .progI := rfl
theorem progW : Statement .progW := rfl
theorem unblock : Statement .unblock := rfl
theorem zer : Statement .zer := rfl
theorem progPrc : Statement .progPrc := rfl
theorem tank : Statement .tank := rfl
theorem unknown (c : Byte) : Statement (.unknown c) := rfl

end Sys2Proof.Laws.TableRow
end

