-- ==== Sys2Proof/Laws/Step.lean ====
section
/-! SUPPORT. What `exec`, `fetch` and `step` can do. -/

namespace Sys2Proof.Machine

section Arms
variable (s : State)
theorem exec_encode (a c : Byte) (d : List Byte) : exec (.encode a c d) s = execEncode a c d s := rfl
theorem exec_decode (bs : List Byte) : exec (.decode bs) s = execDecode bs s := rfl
theorem exec_push (k : List Byte) : exec (.push k) s = execPush k s := rfl
theorem exec_pull : exec .pull s = execPull s := rfl
theorem exec_reset : exec .reset s = execReset s := rfl

/-- Every command-code row classifies its own code (log 7). -/
theorem exec_instrOfName (n : CommandName) : exec (instrOfName n) s = classifyByte n.code s := by
  cases n <;> rfl
end Arms

theorem execReset_legal {s : State} (h : s.params.Legal) :
    execReset s = .next ((s.setQueue []).answer .nothing) :=
  operate_legal h _

theorem classifyByte_legal {s : State} (h : s.params.Legal) (c : Byte) :
    classifyByte c s = .next (s.answer (.classified (classify c))) :=
  operate_legal h _

/-- Everything an instruction can do: it is refused, or it writes the queue and puts out its outputs;
and it leaves the queue as it was unless it is PUSH, PULL or RESET (10_state.md R16). -/
inductive Effect (i : Instr) (s : State) : State → Prop where
  | refused (r : RefuseReason) : Effect i s (s.markRefused r)
  | pure (o : Output) : Effect i s (s.answer o)
  | push (k : List Byte) (hi : i = .push k) :
      Effect i s ((s.setQueue (capKeep s.params.bufferCap (s.q ++ k))).answer
        (.pushed (capEvents s.params.bufferCap (s.q ++ k))))
  | pull (hi : i = .pull) :
      Effect i s ((s.setQueue (pullQueue s.params s.q).rest).answer
        (.pulled (pullQueue s.params s.q).packet (pullQueue s.params s.q).events))
  | reset (hi : i = .reset) : Effect i s ((s.setQueue []).answer .nothing)

theorem operate_effect {i : Instr} {s t : State} {body : Result} (h : operate s body = .next t)
    (hb : body = .next t → Effect i s t) : Effect i s t := by
  rcases operate_next h with ⟨-, rfl⟩ | ⟨-, h⟩
  · exact .refused _
  · exact hb h

theorem classifyByte_effect {i : Instr} {s t : State} {c : Byte}
    (h : classifyByte c s = .next t) : Effect i s t :=
  operate_effect h fun h => by cases h; exact .pure _

/-- The one inversion lemma of `exec`. -/
theorem exec_effect {i : Instr} {s t : State} (h : exec i s = .next t) : Effect i s t := by
  cases i with
  | encode a c d =>
    refine operate_effect h fun h => ?_
    cases hr : encodeRefusal s.params a d <;> rw [hr] at h <;> cases h
    · exact .pure _
    · exact .refused _
  | decode bs => exact operate_effect h fun h => by cases h; exact .pure _
  | push k => exact operate_effect h fun h => by cases h; exact .push k rfl
  | pull => exact operate_effect h fun h => by cases h; exact .pull rfl
  | reset => exact operate_effect h fun h => by cases h; exact .reset rfl
  | _ => exact classifyByte_effect h

/-- Everything one step can do with the port (logs 5, 9, 11). -/
theorem step_cases (s : State) :
    (s.port = [] ∧ step s = .next s) ∨
    (∃ r rest, s.port = r :: rest ∧ r.issuer ≠ .host ∧
      step s = .next ((s.setPort rest).markRefused .concurrentUse)) ∨
    (∃ w rest, s.port = ⟨.host, .word w⟩ :: rest ∧ step s = exec (decodeWord w) (s.setPort rest)) ∨
    (∃ rest, s.port = ⟨.host, .drain⟩ :: rest ∧ step s = finishDrain rest (exec .pull s)) := by
  rcases hp : s.port with _ | ⟨⟨issuer, action⟩, rest⟩
  · exact .inl ⟨rfl, by simp [step, fetch, hp]⟩
  · by_cases hi : issuer = .host
    · subst hi
      cases action with
      | word w => exact .inr (.inr (.inl ⟨w, rest, rfl, by simp [step, fetch, hp]⟩))
      | drain => exact .inr (.inr (.inr ⟨rest, rfl, by simp [step, fetch, hp]⟩))
    · exact .inr (.inl ⟨_, rest, rfl, hi, by simp [step, fetch, hp, hi, refuse]⟩)

end Sys2Proof.Machine
end

