-- ==== Sys2Proof/Laws/Session.lean ====
section
/-! SUPPORT. DRAIN as one relation over the bytes of the queue, and the induction over runs. -/

namespace Sys2Proof.Machine

/-! ## What draining a queue does, byte by byte -/

/-- Draining `q` with parameters `p` does what `log` says and leaves `rest`: each entry is a packet
decoded at the head or one byte dropped there, until the head is Incomplete (41_assembler.md R60). -/
inductive Runs (p : Params) : List Byte → List LogEntry → List Byte → Prop where
  | stop {q : List Byte} (h : decodeFrame p q = .incomplete) : Runs p q [] q
  | yield {q rest : List Byte} {log : List LogEntry} (k : Packet)
      (h : decodeFrame p q = .success k)
      (later : Runs p (q.drop (frameLength k.data.length)) log rest) :
      Runs p q (.yielded k :: log) rest
  | drop {q rest : List Byte} {log : List LogEntry} {b : Byte} (d : Diag)
      (h : (decodeFrame p (b :: q)).event? = some d) (later : Runs p q log rest) :
      Runs p (b :: q) (.dropped d :: log) rest

/-- A queue is drained in one way. -/
theorem Runs.unique {p : Params} {q r r' : List Byte} {l l' : List LogEntry} (h : Runs p q l r)
    (h' : Runs p q l' r') : l = l' ∧ r = r' := by
  induction h generalizing l' with
  | stop h =>
    cases h' with
    | stop => exact ⟨rfl, rfl⟩
    | yield k hk => rw [h] at hk; cases hk
    | drop d hd => rw [h] at hd; cases hd
  | yield k h _ ih =>
    cases h' with
    | stop hk => rw [h] at hk; cases hk
    | yield k' hk later =>
      rw [h] at hk; cases hk
      obtain ⟨rfl, rfl⟩ := ih later
      exact ⟨rfl, rfl⟩
    | drop d hd => rw [h] at hd; cases hd
  | drop d h _ ih =>
    cases h' with
    | stop hk => rw [hk] at h; cases h
    | yield k hk => rw [hk] at h; cases h
    | drop d' hd later =>
      rw [h] at hd; cases hd
      obtain ⟨rfl, rfl⟩ := ih later
      exact ⟨rfl, rfl⟩

/-- What draining leaves is Incomplete (40_codec.md R54). -/
theorem Runs.rest_incomplete {p : Params} {q r : List Byte} {l : List LogEntry}
    (h : Runs p q l r) : decodeFrame p r = .incomplete := by
  induction h with
  | stop h => exact h
  | yield _ _ _ ih => exact ih
  | drop _ _ _ ih => exact ih

/-- One PULL is a prefix of draining: up to its packet, or to the end. -/
theorem pullQueue_runs (p : Params) (q : List Byte) :
    ((pullQueue p q).packet = none →
      Runs p q ((pullQueue p q).events.map .dropped) (pullQueue p q).rest) ∧
    ∀ k, (pullQueue p q).packet = some k → (pullQueue p q).rest.length < q.length ∧
      ∀ log rest, Runs p (pullQueue p q).rest log rest →
        Runs p q ((pullQueue p q).events.map .dropped ++ .yielded k :: log) rest := by
  induction q using pullQueue_induction p with
  | incomplete q h => simpa [pullQueue_incomplete h] using Runs.stop h
  | success q k h =>
    have h6 : ¬ q.length < 6 := fun hc => by rw [decodeFrame_short hc] at h; cases h
    simp only [pullQueue_success h, reduceCtorEq, false_implies, Option.some.injEq, true_and,
      List.map_nil, List.nil_append]
    rintro _ rfl
    exact ⟨by rw [List.length_drop, frameLength]; omega, fun _ _ later => .yield k h later⟩
  | error b q d h ih =>
    rw [pullQueue_error h]
    refine ⟨fun hn => .drop d h (ih.1 hn), fun k hk => ⟨?_, fun log rest later => ?_⟩⟩
    · exact Nat.lt_succ_of_lt (ih.2 k hk).1
    · exact .drop d h ((ih.2 k hk).2 log rest later)

/-- One turn of DRAIN on an instance with legal parameters (30_encoding.md R45). -/
theorem drainLoop_succ {s : State} (h : s.params.Legal) (n : Nat) :
    drainLoop (n + 1) s =
      match (pullQueue s.params s.q).packet with
      | some k => (drainLoop n ((s.setQueue (pullQueue s.params s.q).rest).answer
          (.pulled (some k) (pullQueue s.params s.q).events))).after
          ((pullQueue s.params s.q).events.map .dropped ++ [.yielded k])
      | none => ⟨(s.setQueue (pullQueue s.params s.q).rest).answer
          (.pulled none (pullQueue s.params s.q).events),
          (pullQueue s.params s.q).events.map .dropped, false⟩ := by
  rw [drainLoop, exec_pull, execPull_legal h]
  simp only [State.answer_out]
  cases (pullQueue s.params s.q).packet <;> rfl

theorem drainLoop_runs (n : Nat) (s : State) (h : s.params.Legal) (hn : s.q.length < n) :
    Runs s.params s.q (drainLoop n s).log (drainLoop n s).state.q ∧
      (drainLoop n s).state.params = s.params := by
  induction n generalizing s with
  | zero => omega
  | succ n ih =>
    rw [drainLoop_succ h]
    cases hk : (pullQueue s.params s.q).packet with
    | none => exact ⟨(pullQueue_runs s.params s.q).1 hk, rfl⟩
    | some k =>
      obtain ⟨hlt, hruns⟩ := (pullQueue_runs s.params s.q).2 k hk
      obtain ⟨hlater, hparams⟩ := ih ((s.setQueue (pullQueue s.params s.q).rest).answer
        (.pulled (some k) (pullQueue s.params s.q).events)) h (by simp; omega)
      refine ⟨?_, hparams⟩
      simpa [Session.after] using hruns _ _ hlater

/-- DRAIN drains (30_encoding.md R45): one PULL more than the queue has bytes is enough. -/
theorem drain_runs {s : State} (h : s.params.Legal) :
    Runs s.params s.q (drain s).log (drain s).state.q ∧ (drain s).state.params = s.params :=
  drainLoop_runs _ s h (Nat.lt_succ_self _)

/-- Whether a PUSH overflows (41_assembler.md R59). -/
theorem pushDrain_overflow {s : State} (h : s.params.Legal) (k : List Byte) :
    (pushDrain k s).overflow = decide (s.params.bufferCap < (s.q ++ k).length) := by
  rw [pushDrain, exec_push, execPush_legal h]
  by_cases hk : s.params.bufferCap < (s.q ++ k).length
  · simp [overflowed, capEvents_over hk]; simpa using hk
  · simp [overflowed, capEvents_within (Nat.le_of_not_lt hk)]; simpa using hk

/-- A PUSH with no overflow and a DRAIN drain the queue with the chunk at its end. -/
theorem pushDrain_runs {s : State} {k : List Byte} (h : s.params.Legal)
    (ho : (pushDrain k s).overflow = false) :
    Runs s.params (s.q ++ k) (pushDrain k s).log (pushDrain k s).state.q ∧
      (pushDrain k s).state.params = s.params := by
  have hk : (s.q ++ k).length ≤ s.params.bufferCap := by
    rw [pushDrain_overflow h] at ho; simpa using ho
  rw [pushDrain, exec_push, execPush_legal h, capKeep_within hk]
  exact drain_runs (s := (s.setQueue (s.q ++ k)).answer _) h

/-! ## Runs of steps -/

/-- What holds of no steps, and of one step followed by a run, holds of every run. -/
theorem run_induction {P : State → State → Prop} (none : ∀ s, P s s)
    (one : ∀ s t u, step s = .next t → P t u → P s u) (n : Nat) (s t : State)
    (h : Host.Core.run Sys2Proof.core n s = .next t) : P s t := by
  induction n generalizing s with
  | zero => cases h; exact none _
  | succ n ih =>
    simp only [Host.Core.run] at h
    rcases hs : step s with u | e | e <;> rw [show Sys2Proof.core.step s = _ from hs] at h
    · exact one s u t hs (ih u h)
    · cases h
    · cases h

end Sys2Proof.Machine
end

