-- ==== Sys2Proof/Tests/Slice0.lean ====
section
/-! SUPPORT. Tests. Expected values are the spec's own worked examples and vectors
(spec/95_test_vectors.md, named in each comment), or bits written out from spec/opcode_table.json. -/

namespace Sys2Proof.Tests

open Sys2Proof Sys2Proof.Machine

/-- The outputs of an operation, if it answers a next state. -/
def outOf : Result → Option Output
  | .next t => some t.out
  | _ => none

/-- The queue after an operation, if it answers a next state. -/
def queueOf : Result → Option (List Byte)
  | .next t => some t.q
  | _ => none

/-- Whether the mark is set after an operation, if it answers a next state. -/
def markOf : Result → Option Bool
  | .next t => some t.refused
  | _ => none

/-- After reset, with bytes in the queue. -/
def holding (q : List Byte) : State := { State.reset with q := q }

/-- After reset, with one word issued by the host. -/
def issuing (w : PortWord) : State := { State.reset with port := [⟨.host, .word w⟩] }

/-- The frame of W1. -/
def w1 : List Byte := [0x20#8, 0x06#8, 0x01#8, 0x4B#8, 0x6C#8, 0x36#8]

/-- An instance with the smallest legal queue. -/
def small : State := State.boot ⟨255, 255⟩

/-! ## Decoding (opcode_table.json, bit by bit) -/

theorem test_decode_encode_row : decodeWord (.operation 0b00#2 1#8 0x4B#8 []) = .encode 1#8 75#8 [] := by
  decide
theorem test_decode_decode_row : decodeWord (.operation 0b01#2 0#8 0#8 w1) = .decode w1 := by decide
theorem test_decode_push_row : decodeWord (.operation 0b10#2 0#8 0#8 [0x20#8]) = .push [0x20#8] := by
  decide
theorem test_decode_pull_row : decodeWord (.operation 0b11#2 0#8 0#8 []) = .pull := by decide
theorem test_decode_reset_signal : decodeWord .resetSignal = .reset := by decide
theorem test_decode_ok_row : decodeWord (.commandByte 0b00011110#8) = .ok := by decide
theorem test_decode_error_row : decodeWord (.commandByte 0b00100101#8) = .error := by decide
theorem test_decode_stop_row : decodeWord (.commandByte 0b00101111#8) = .stop := by decide
theorem test_decode_volume_row : decodeWord (.commandByte 0b01000101#8) = .volume := by decide
theorem test_decode_state_row : decodeWord (.commandByte 0b01001011#8) = .state := by decide
theorem test_decode_price_row : decodeWord (.commandByte 0b01011100#8) = .price := by decide
theorem test_decode_block_row : decodeWord (.commandByte 0b01101001#8) = .block := by decide
theorem test_decode_linetest_row : decodeWord (.commandByte 0b01101010#8) = .linetest := by decide
theorem test_decode_progI_row : decodeWord (.commandByte 0b01110000#8) = .progI := by decide
theorem test_decode_progW_row : decodeWord (.commandByte 0b01110101#8) = .progW := by decide
theorem test_decode_unblock_row : decodeWord (.commandByte 0b01110111#8) = .unblock := by decide
theorem test_decode_zer_row : decodeWord (.commandByte 0b10000001#8) = .zer := by decide
theorem test_decode_progPrc_row : decodeWord (.commandByte 0b10101001#8) = .progPrc := by decide
theorem test_decode_tank_row : decodeWord (.commandByte 0b11000101#8) = .tank := by decide
/-- CL17: the neighbour of OK is not OK. -/
theorem test_decode_unknown_row : decodeWord (.commandByte 0x1F#8) = .unknown 31#8 := by decide
theorem test_table_word_too_wide : decodeTableWord 16 0x1E = none := by decide
theorem test_table_word_first_step :
    outOf (step (State.reset.withFetchWord 8 0b01001011)) = some (.classified .state) := by decide

/-! ## WellFormed refuses an ill-formed term for each check -/

theorem test_wf_refuses_known_code_as_unknown :
    (Instr.unknown 75#8).wellFormed Params.standard = false := by decide
theorem test_wf_refuses_address_zero :
    (Instr.encode 0#8 75#8 []).wellFormed Params.standard = false := by decide
theorem test_wf_refuses_long_data :
    (Instr.encode 1#8 75#8 [1#8]).wellFormed ⟨6, 255⟩ = false := by decide
theorem test_wf_accepts_w1 : (Instr.encode 1#8 75#8 []).wellFormed Params.standard = true := by decide

/-! ## Operations -/

/-- EN2. -/
theorem test_encode_three_bytes :
    outOf (exec (.encode 2#8 69#8 [1#8, 2#8, 3#8]) State.reset) =
      some (.frame [0x20#8, 0x09#8, 0x02#8, 0x45#8, 0x01#8, 0x02#8, 0x03#8, 0x6E#8, 0x36#8]) := by
  decide
/-- EN10, EN8: the address is tested first, and the mark is set. -/
theorem test_encode_refuses_address_first :
    (exec (.encode 0#8 30#8 (List.replicate 250 0#8)) State.reset) =
      .next { State.reset with refusal := some .encodeAddressZero, refused := true } := rfl
/-- DC13: L = 7 reads the first 0x36 as the checksum. -/
theorem test_decode_shifted_checksum :
    outOf (exec (.decode [0x20#8, 0x07#8, 0x01#8, 0x4B#8, 0x6C#8, 0x36#8, 0x36#8]) State.reset) =
      some (.parsed (.checksumError 0x01#8 0x36#8)) := by decide
/-- DC20: marker values inside the data are data. -/
theorem test_decode_unescaped_markers :
    outOf (exec (.decode [0x20#8, 0x08#8, 0x05#8, 0x5C#8, 0x20#8, 0x36#8, 0x67#8, 0x36#8])
      State.reset) = some (.parsed (.success ⟨5#8, 92#8, [0x20#8, 0x36#8]⟩)) := by decide
/-- A16, at the smallest legal cap: one byte over the cap drops the oldest one. -/
theorem test_push_over_cap :
    outOf (exec (.push [7#8]) { small with q := List.replicate 255 0#8 }) =
      some (.pushed [.overflow 1]) := by decide +kernel
/-- A4: bytes are added at the end. -/
theorem test_push_appends : queueOf (exec (.push [1#8, 2#8]) (holding [3#8])) =
    some [3#8, 1#8, 2#8] := by decide
/-- A5: a checksum error, five bytes of its tail dropped, then the next frame. -/
theorem test_pull_resync :
    outOf (exec .pull (holding [0x20#8, 0x06#8, 0x01#8, 0x4B#8, 0xFF#8, 0x36#8,
      0x20#8, 0x09#8, 0x02#8, 0x45#8, 0x01#8, 0x02#8, 0x03#8, 0x6E#8, 0x36#8])) =
      some (.pulled (some ⟨2#8, 69#8, [1#8, 2#8, 3#8]⟩)
        [.checksum 0x6C#8 0xFF#8, .format .badStx, .format .badStx, .format .badStx,
          .format .badStx, .format .badStx]) := by decide
/-- A4: what follows the frame stays. -/
theorem test_pull_leaves_the_rest :
    queueOf (exec .pull (holding (w1 ++ [0x20#8, 0x06#8, 0x01#8]))) =
      some [0x20#8, 0x06#8, 0x01#8] := by decide
/-- A15. -/
theorem test_reset_empties : queueOf (exec .reset (holding [0x20#8, 0x06#8, 0x01#8])) = some [] := by
  decide
/-- R13: RESET does not clear the mark. -/
theorem test_reset_keeps_mark : markOf (exec .reset { State.reset with refused := true }) = some true := by
  decide

/-- Log 16: a second agent's ENCODE with invalid operands on an illegal instance is CONCURRENT_USE. -/
theorem test_step_concurrent_use_first :
    step { State.boot ⟨5, 255⟩ with port := [⟨.otherAgent, .word (.operation 0#2 0#8 0#8 [])⟩] } =
      .next { State.boot ⟨5, 255⟩ with refusal := some .concurrentUse, refused := true } := rfl

/-! ## Command codes (CL1 to CL16) -/

theorem test_ok : outOf (exec .ok State.reset) = some (.classified .ok) := by decide
theorem test_error : outOf (exec .error State.reset) = some (.classified .error) := by decide
theorem test_stop : outOf (exec .stop State.reset) = some (.classified .stop) := by decide
theorem test_volume : outOf (exec .volume State.reset) = some (.classified .volume) := by decide
theorem test_state : outOf (exec .state State.reset) = some (.classified .state) := by decide
theorem test_price : outOf (exec .price State.reset) = some (.classified .price) := by decide
theorem test_block : outOf (exec .block State.reset) = some (.classified .block) := by decide
theorem test_linetest : outOf (exec .linetest State.reset) = some (.classified .linetest) := by decide
theorem test_progI : outOf (exec .progI State.reset) = some (.classified .progI) := by decide
theorem test_progW : outOf (exec .progW State.reset) = some (.classified .progW) := by decide
theorem test_unblock : outOf (exec .unblock State.reset) = some (.classified .unblock) := by decide
theorem test_zer : outOf (exec .zer State.reset) = some (.classified .zer) := by decide
theorem test_progPrc : outOf (exec .progPrc State.reset) = some (.classified .progPrc) := by decide
theorem test_tank : outOf (exec .tank State.reset) = some (.classified .tank) := by decide
theorem test_unknown : outOf (exec (.unknown 43#8) State.reset) =
    some (.classified (.unknown 43#8)) := by decide

/-! ## Parameters below the default (EN11, DC22, DC23 with MAX_FRAME = 200) -/

/-- EN11. -/
theorem test_encode_too_long_at_200 :
    markOf (exec (.encode 1#8 30#8 (List.replicate 195 0#8)) (State.boot ⟨200, 1024⟩)) =
      some true := by decide +kernel
/-- DC22: a good checksum, and then the length. -/
theorem test_decode_over_max_frame :
    decodeFrame ⟨200, 1024⟩ ([0x20#8, 0xC9#8, 0x01#8, 0x1E#8] ++ List.replicate 195 0#8 ++
      [0xF6#8, 0x36#8]) = .invalidFormat .badLength := by decide +kernel
/-- CK6. -/
theorem test_checksum_longest :
    checksum ([0x20#8, 0xFF#8, 0x01#8, 0x1E#8] ++ List.replicate 249 0#8) = 0xC0#8 := by
  decide +kernel

/-! ## The textual syntax (R45, with the lines of EN5 and A4) -/

theorem test_listing_encode :
    readLine "ENCODE 5, PRICE, [20 36] ; EN5".toList =
      .ok (some (.word (.operation 0#2 5#8 92#8 [0x20#8, 0x36#8]))) := rfl
theorem test_listing_hex_and_empty :
    readLine "ENCODE 0x0A, 112, []".toList =
      .ok (some (.word (.operation 0#2 10#8 112#8 []))) := rfl
/-- Hex digits of either case. -/
theorem test_listing_digit_cases :
    readLine "PUSH [aB Ff]".toList =
      .ok (some (.word (.operation 2#2 0#8 0#8 [0xAB#8, 0xFF#8]))) := rfl
theorem test_listing_program :
    readListing "RESET ; signal\nPUSH [20 06]\n\nDRAIN".toList =
      .ok [.word .resetSignal, .word (.operation 2#2 0#8 0#8 [0x20#8, 0x06#8]), .drain] := rfl
theorem test_listing_rejects_unknown_word :
    readLine "POP [20]".toList = .error .unknownOperation := rfl
theorem test_listing_rejects_bad_operands :
    readLine "PUSH [2]".toList = .error .badOperands := rfl

end Sys2Proof.Tests
end

