-- ==== Sys2Proof/Tests/Witnesses.lean ====
section
/-! SUPPORT. For every statement with hypotheses, concrete values that meet all of them together, and
for a statement of several clauses, values at the boundary of each. -/

namespace Sys2Proof.Tests

open Sys2Proof Sys2Proof.Machine

/-! ## Encodings and steps -/

theorem witness_PortWordReadsBackAsInstruction :
    (Instr.unknown 31#8).canonical = true ∧ Instr.tank.canonical = true := by decide

theorem witness_CommandRowsPutOutTheirNames :
    State.reset.params.Legal ∧ (Instr.unknown 0#8).canonical = true ∧
      (Instr.unknown 255#8).canonical = true := by decide

theorem witness_ListingLineReadsBack :
    writeLine (.encode 1#8 75#8 [0x20#8]) =
      some ("ENCODE 0x01, STATE, [20]".toList) ∧
    writeLine .pull = some ("PULL".toList) := ⟨rfl, rfl⟩

theorem witness_StepRunsTheDecodedInstruction :
    (issuing (.operation 2#2 0#8 0#8 [1#8])).port =
      ⟨.host, .word (.operation 2#2 0#8 0#8 [1#8])⟩ :: [] := rfl

theorem witness_IdleStepChangesNothing : State.reset.port = [] := rfl

theorem witness_ConcurrentUseIsRefused :
    ∃ r₁ r₂ : Request, r₁.issuer = .otherAgent ∧ r₂.issuer = .overlapping ∧
      r₁.issuer ≠ .host ∧ r₂.issuer ≠ .host ∧
      { State.reset with port := [r₁, r₂] }.port = r₁ :: [r₂] :=
  ⟨⟨.otherAgent, .word .resetSignal⟩, ⟨.overlapping, .drain⟩, rfl, rfl, by decide, by decide, rfl⟩

theorem witness_DrainStepsReachTheDrainedState :
    ∃ s : State, s.params.Legal ∧ s.port = ⟨.host, .drain⟩ :: [] ∧ s.q = w1 :=
  ⟨{ holding w1 with port := [⟨.host, .drain⟩] }, by decide, rfl, rfl⟩

/-! ## Frames and refusals -/

theorem witness_InstructionsWriteOnlyTheirState :
    exec .ok State.reset = .next { State.reset with out := .classified .ok } ∧
    (∀ k, Instr.ok ≠ .push k) ∧ Instr.ok ≠ .pull ∧ Instr.ok ≠ .reset :=
  ⟨rfl, fun _ => nofun, nofun, nofun⟩

/-- Each reason is met, the data one byte over the bound. -/
theorem witness_RefusalsAreExactlyThose :
    exec .pull (State.boot ⟨5, 255⟩) =
      .next { State.boot ⟨5, 255⟩ with refusal := some .badParameters, refused := true } ∧
    exec (.encode 0#8 1#8 []) small =
      .next { small with refusal := some .encodeAddressZero, refused := true } ∧
    exec (.encode 1#8 1#8 [9#8]) (State.boot ⟨6, 255⟩) =
      .next { State.boot ⟨6, 255⟩ with refusal := some .encodeDataTooLong, refused := true } :=
  ⟨rfl, rfl, rfl⟩

theorem witness_RefusedOperationHasNoEffect :
    exec (.encode 0#8 1#8 []) (holding [7#8]) =
      .next { holding [7#8] with refusal := some .encodeAddressZero, refused := true } := rfl

theorem witness_CodecNeitherReadsNorWritesTheQueue :
    (holding [7#8]).params = (holding w1).params ∧
    exec (.decode w1) (holding [7#8]) =
      .next { holding [7#8] with out := .parsed (.success ⟨1#8, 75#8, []⟩) } ∧
    exec (.decode w1) (holding w1) =
      .next { holding w1 with out := .parsed (.success ⟨1#8, 75#8, []⟩) } := ⟨rfl, rfl, rfl⟩

/-! ## The codec -/

/-- The shortest and the longest data at MAX_FRAME = 255, and the only length at MAX_FRAME = 6. -/
theorem witness_EncodeLaysOutTheFrame :
    State.reset.params.Legal ∧ (255#8 : Byte) ≠ 0#8 ∧
    ([] : List Byte).length + 6 ≤ State.reset.params.maxFrame ∧
    (List.replicate 249 (0#8 : Byte)).length + 6 = State.reset.params.maxFrame ∧
    Params.Legal ⟨6, 255⟩ ∧ ([] : List Byte).length + 6 = (⟨6, 255⟩ : Params).maxFrame := by
  decide +kernel

theorem witness_EncodeRefusesInvalidPackets :
    State.reset.params.Legal ∧ (1#8 : Byte) ≠ 0#8 ∧
    State.reset.params.maxFrame < (List.replicate 250 (0#8 : Byte)).length + 6 := by
  decide +kernel

theorem witness_DecodeCompletesOnEverySequence : State.reset.params.Legal := by decide

/-- Every clause has an input: DC2, DC7, DC3, DC11, DC12, DC5, a frame of 7 at MAX_FRAME = 6, DC14
and DC16. -/
theorem witness_DecodeReportsTheFirstFailedCondition :
    decodeFrame Params.standard [0x20#8, 6#8, 1#8, 0x4B#8, 0x6C#8] = .incomplete ∧
    decodeFrame Params.standard [0x20#8, 9#8, 2#8, 0x45#8, 1#8, 2#8] = .incomplete ∧
    decodeFrame Params.standard [0x21#8, 6#8, 1#8, 0x4B#8, 0x6C#8, 0x36#8] =
      .invalidFormat .badStx ∧
    decodeFrame Params.standard [0x20#8, 6#8, 1#8, 0x4B#8, 0x6C#8, 0x37#8] =
      .invalidFormat .badEtx ∧
    decodeFrame Params.standard [0x20#8, 6#8, 1#8, 0x4B#8, 0xFF#8, 0x36#8] =
      .checksumError 0x6C#8 0xFF#8 ∧
    decodeFrame Params.standard [0x20#8, 5#8, 1#8, 0x4B#8, 0x6C#8, 0x36#8] =
      .invalidFormat .badLength ∧
    decodeFrame ⟨6, 255⟩ (encodeFrame 1#8 75#8 [0#8]) = .invalidFormat .badLength ∧
    decodeFrame Params.standard [0x20#8, 6#8, 0#8, 0x4B#8, 0x6D#8, 0x36#8] =
      .invalidFormat .badAddress ∧
    decodeFrame Params.standard w1 = .success ⟨1#8, 75#8, []⟩ := by decide

theorem witness_DecodeReadsOnlyBelowTheFrameEnd :
    (w1 ++ [0xAA#8]).length = (w1 ++ [0xBB#8]).length ∧
    byteAt (w1 ++ [0xAA#8]) 0 = byteAt (w1 ++ [0xBB#8]) 0 ∧
    byteAt (w1 ++ [0xAA#8]) 1 = byteAt (w1 ++ [0xBB#8]) 1 ∧
    6 ≤ lengthField (w1 ++ [0xAA#8]) ∧
    lengthField (w1 ++ [0xAA#8]) ≤ (w1 ++ [0xAA#8]).length ∧
    (w1 ++ [0xAA#8]).take (lengthField (w1 ++ [0xAA#8])) =
      (w1 ++ [0xBB#8]).take (lengthField (w1 ++ [0xAA#8])) := by decide

theorem witness_DecodeIsMonotone : decodeFrame Params.standard w1 ≠ .incomplete := by decide

theorem witness_DecodeInvertsEncode :
    State.reset.params.Legal ∧ (1#8 : Byte) ≠ 0#8 ∧
    [0x20#8, (0x36#8 : Byte)].length + 6 ≤ State.reset.params.maxFrame := by decide

/-- The least and the greatest byte outside the table, and STX's value as a command (CL15, CL18,
CL19). -/
theorem witness_UnknownCommandIsNoError :
    State.reset.params.Legal ∧ (1#8 : Byte) ≠ 0#8 ∧
    ([] : List Byte).length + 6 ≤ State.reset.params.maxFrame ∧
    ∀ c ∈ [0#8, 255#8, (32#8 : Byte)],
      c.toNat ∉ [30, 37, 47, 69, 75, 92, 105, 106, 112, 117, 119, 129, 169, 197] := by decide

theorem witness_EncodeInvertsDecode :
    decodeFrame Params.standard (w1 ++ [0xAA#8]) = .success ⟨1#8, 75#8, []⟩ := by decide

/-- The first and the last index of the range. -/
theorem witness_SingleByteChangeIsDetected :
    ([] : List Byte).length + 6 ≤ 255 ∧ 2 ≤ 4 + ([] : List Byte).length ∧
    byteAt (encodeFrame 1#8 75#8 []) 2 ≠ 2#8 ∧
    byteAt (encodeFrame 1#8 75#8 []) (4 + ([] : List Byte).length) ≠ 0#8 := by decide

/-! ## The assembler -/

/-- Exactly at the cap, and one byte over it. -/
theorem witness_PushAppendsAndCaps :
    small.params.Legal ∧
    small.q.length + (List.replicate 255 (0#8 : Byte)).length = small.params.bufferCap ∧
    small.params.bufferCap < small.q.length + (List.replicate 256 (0#8 : Byte)).length := by
  decide +kernel

theorem witness_PullFollowsItsLoop :
    (holding w1).params.Legal ∧
    decodeFrame (holding w1).params (holding w1).q = .success ⟨1#8, 75#8, []⟩ ∧
    decodeFrame State.reset.params State.reset.q = .incomplete ∧
    (holding (0x20#8 :: [6#8, 1#8, 0x4B#8, 0xFF#8, 0x36#8])).params.Legal ∧
    decodeFrame Params.standard [0x20#8, 6#8, 1#8, 0x4B#8, 0xFF#8, 0x36#8] =
      .checksumError 0x6C#8 0xFF#8 ∧
    decodeFrame Params.standard (0xFF#8 :: w1) = .invalidFormat .badStx := by decide

theorem witness_PullDropsAreBounded : (holding (0xFF#8 :: w1)).params.Legal := by decide

/-- A PULL that returns a packet after a drop, and one that returns None after a drop. -/
theorem witness_PullLeavesASuffix :
    (holding (0xFF#8 :: w1)).params.Legal ∧
    outOf (exec .pull (holding (0xFF#8 :: w1))) =
      some (.pulled (some ⟨1#8, 75#8, []⟩) [.format .badStx]) ∧
    outOf (exec .pull (holding [0xFF#8, 0#8, 0#8, 0#8, 0#8, 0#8])) =
      some (.pulled none [.format .badStx]) := by decide

theorem witness_PullReturnsTheEarliestFrame :
    (holding (0xFF#8 :: w1)).params.Legal ∧
    decodeFrame Params.standard ((0xFF#8 :: w1).drop 1) = .success ⟨1#8, 75#8, []⟩ ∧
    (decodeFrame Params.standard ((0xFF#8 :: w1).drop 0)).tag = 2#2 := by decide

theorem witness_PullWithEnoughBytesProgresses :
    (holding w1).params.Legal ∧ 6 ≤ (holding w1).q.length ∧
    lengthField (holding w1).q ≤ (holding w1).q.length := by decide

theorem witness_ChunkingNeverChangesWhatIsReceived :
    State.reset.params.Legal ∧ State.reset.q = [] ∧
    (feed [[0xFF#8, 0x20#8, 6#8], [1#8, 0x4B#8], [0x6C#8, 0x36#8]] State.reset).overflow = false ∧
    (feed [[[0xFF#8, 0x20#8, 6#8], [1#8, 0x4B#8], [0x6C#8, 0x36#8]].flatten]
      State.reset).overflow = false := by decide

theorem witness_FramesArriveInOrder :
    State.reset.params.Legal ∧ State.reset.q = [] ∧
    (∀ k ∈ [(⟨1#8, 75#8, []⟩ : Packet), ⟨2#8, 69#8, [1#8]⟩], k.Valid State.reset.params) ∧
    ([(⟨1#8, 75#8, []⟩ : Packet), ⟨2#8, 69#8, [1#8]⟩].map
      fun k => encodeFrame k.address k.command k.data).flatten.length ≤
      State.reset.params.bufferCap := by decide

/-- A frame received after one byte of garbage; and one covered by a packet received before it. -/
theorem witness_FrameIsLostOnlyToACoveringFrame :
    State.reset.params.Legal ∧ State.reset.q = [] ∧
    Packet.Valid State.reset.params ⟨1#8, 75#8, []⟩ ∧
    (feed [[0xFF#8] ++ encodeFrame 1#8 75#8 [] ++ []] State.reset).overflow = false ∧
    1 < headAfter (feed [[0xFF#8] ++ encodeFrame 1#8 75#8 [] ++ []] State.reset).log ∧
    (feed [[0x20#8, 12#8, 3#8, 92#8] ++ encodeFrame 1#8 75#8 [] ++ [0x45#8, 0x36#8]]
      State.reset).overflow = false ∧
    4 < headAfter (feed [[0x20#8, 12#8, 3#8, 92#8] ++ encodeFrame 1#8 75#8 [] ++ [0x45#8, 0x36#8]]
      State.reset).log := by decide

/-! ## Hazards, reset, invariants -/

/-- A6, and the shortest and longest headers that wait. -/
theorem witness_FalseHeaderHoldsTheQueue :
    (holding (0x20#8 :: 0x20#8 :: [6#8, 1#8, 0x4B#8, 0x6C#8, 0x36#8])).params.Legal ∧
    6 ≤ (0x20#8 : Byte).toNat ∧
    (holding (0x20#8 :: 0x20#8 :: [6#8, 1#8, 0x4B#8, 0x6C#8, 0x36#8])).q.length <
      (0x20#8 : Byte).toNat ∧
    (holding [0x20#8, 6#8]).q.length < (6#8 : Byte).toNat ∧
    (holding [0x20#8, 255#8]).q.length < (255#8 : Byte).toNat := by decide

theorem witness_FalseHeaderWaitIsBounded :
    Params.standard.Legal ∧ 6 ≤ [0x20#8, 255#8, 0#8, 0#8, 0#8, (0#8 : Byte)].length ∧
    decodeFrame Params.standard [0x20#8, 255#8, 0#8, 0#8, 0#8, 0#8] = .incomplete := by decide

theorem witness_ResetEmptiesTheQueue : (holding w1).params.Legal := by decide

/-- A later RESET of an instance with bytes held and the mark set. -/
theorem witness_StateAfterReset :
    { holding w1 with refused := true }.params.Legal ∧
    exec .reset { holding w1 with refused := true } = .next { State.reset with refused := true } :=
  ⟨by decide, rfl⟩

theorem witness_ParametersAreFixedForLife :
    Host.Core.run Sys2Proof.core 2 (issuing (.operation 2#2 0#8 0#8 [1#8])) =
      .next { holding [1#8] with out := .pushed [] } := rfl

theorem witness_RefusedMarkIsSticky :
    exec (.encode 0#8 1#8 []) small =
      .next { small with refusal := some .encodeAddressZero, refused := true } ∧
    { issuing .resetSignal with refused := true }.refused = true ∧
    Host.Core.run Sys2Proof.core 1 { issuing .resetSignal with refused := true } =
      .next { State.reset with refused := true } := ⟨rfl, rfl, rfl⟩

theorem witness_BootIsGood : Params.Legal ⟨6, 255⟩ ∧ Params.standard.Legal := by decide

theorem witness_EveryStepKeepsTheInvariant : (issuing .resetSignal).Inv ∧
    step (issuing .resetSignal) = .next State.reset := by
  refine ⟨⟨by decide, by decide, ?_, ?_, ?_, ?_, ?_⟩, rfl⟩ <;> intros <;> contradiction

theorem witness_DutifulHostIsNeverRefused :
    (issuing (.operation 0#2 1#8 75#8 [])).params.Legal ∧
    (issuing (.operation 0#2 1#8 75#8 [])).refused = false ∧
    (∀ r ∈ (issuing (.operation 0#2 1#8 75#8 [])).port, r.issuer = .host) ∧
    (decodeWord (.operation 0#2 1#8 75#8 [])).wellFormed Params.standard = true := by decide

end Sys2Proof.Tests
end

section
/-! The parameters along a run (spec/00_scope.md R9, 10_state.md R15). -/

namespace Sys2Proof.Machine

/-- No effect of an instruction reaches the parameters. -/
theorem Effect.params_eq {i : Instr} {s t : State} (h : Effect i s t) : t.params = s.params := by
  cases h with
  | refused r => exact State.markRefused_params r s
  | pure o => exact State.answer_params o s
  | push k _ => simp
  | pull _ => simp
  | reset _ => simp

theorem exec_params {i : Instr} {s t : State} (h : exec i s = .next t) : t.params = s.params :=
  (exec_effect h).params_eq

/-- Ending or continuing a DRAIN writes nothing but the port. -/
theorem finishDrain_next {rest : List Request} {r : Result} {t : State}
    (h : finishDrain rest r = .next t) : ∃ u, r = .next u ∧ (t = u ∨ t = u.setPort rest) := by
  cases r with
  | next u =>
    rw [finishDrain, Host.Outcome.next.injEq] at h
    refine ⟨u, rfl, ?_⟩
    by_cases hp : returnedPacket u.out
    · exact .inl (by rw [← h, if_pos hp])
    · exact .inr (by rw [← h, if_neg hp])
  | fault e => cases h
  | refused e => cases h

theorem finishDrain_params {rest : List Request} {r : Result} {t : State} {p : Params}
    (h : finishDrain rest r = .next t) (hr : ∀ u, r = .next u → u.params = p) : t.params = p := by
  obtain ⟨u, hu, ht⟩ := finishDrain_next h
  have htu : t.params = u.params := by rcases ht with rfl | rfl <;> rfl
  exact htu.trans (hr u hu)

theorem step_params {s t : State} (h : step s = .next t) : t.params = s.params := by
  rcases step_cases s with ⟨-, hs⟩ | ⟨_, rest, -, -, hs⟩ | ⟨w, rest, -, hs⟩ | ⟨rest, -, hs⟩ <;>
    rw [hs] at h
  case inl => cases h; rfl
  case inr.inl => cases h; rfl
  case inr.inr.inl => exact (exec_params h).trans (State.setPort_params rest s)
  case inr.inr.inr => exact finishDrain_params h fun _ => exec_params

/-- Settles O43, by induction on the run: `exec` has no effect on the parameters, so no step has. -/
theorem parametersAreFixedForLife : Obligations.ParametersAreFixedForLife :=
  run_induction (P := fun s t => t.params = s.params) (fun _ => rfl)
    fun _ _ _ hstep later => later.trans (step_params hstep)

end Sys2Proof.Machine
end

section
/-! The sticky mark along a run (spec/10_state.md R13, 60_exceptions.md R78). -/

namespace Sys2Proof.Machine

/-- A property that no write of the port, no CONCURRENT_USE and no instruction breaks, no step
breaks. -/
theorem step_keeps {P : State → Prop} (port : ∀ s v, P s → P (s.setPort v))
    (rejected : ∀ s, P s → P (s.markRefused .concurrentUse))
    (instr : ∀ i s t, exec i s = .next t → P s → P t)
    (s t : State) (h : step s = .next t) (hs : P s) : P t := by
  rcases step_cases s with ⟨-, he⟩ | ⟨_, rest, -, -, he⟩ | ⟨w, rest, -, he⟩ | ⟨rest, -, he⟩ <;>
    rw [he] at h
  case inl => cases h; exact hs
  case inr.inl => cases h; exact rejected _ (port s rest hs)
  case inr.inr.inl => exact instr _ _ t h (port s rest hs)
  case inr.inr.inr =>
    obtain ⟨u, hu, ht⟩ := finishDrain_next h
    have hPu : P u := instr _ s u hu hs
    rcases ht with rfl | rfl
    · exact hPu
    · exact port u rest hPu

/-- A property that every step keeps, every run keeps. -/
theorem run_keeps {P : State → Prop} (kept : ∀ s t, step s = .next t → P s → P t) (n : Nat)
    (s t : State) (hs : P s) (h : Host.Core.run Sys2Proof.core n s = .next t) : P t :=
  run_induction (P := fun s t => P s → P t) (fun _ => id)
    (fun s t _ hstep later hs => later (kept s t hstep hs)) n s t h hs

/-- An effect sets the mark or leaves it as it was; it sets it exactly where it gives a reason. -/
theorem Effect.refused_eq {i : Instr} {s t : State} (h : Effect i s t) :
    t.refused = (t.refusal.isSome || s.refused) := by
  cases h with
  | refused r => simp
  | pure o => simp
  | push k _ => simp
  | pull _ => simp
  | reset _ => simp

theorem exec_refused {i : Instr} {s t : State} (h : exec i s = .next t) :
    t.refused = (t.refusal.isSome || s.refused) :=
  (exec_effect h).refused_eq

theorem exec_marks_refusal (i : Instr) (s t : State) (h : exec i s = .next t)
    (hr : t.refusal ≠ none) : t.refused = true := by
  rw [exec_refused h, Option.isSome_iff_ne_none.2 hr, Bool.true_or]

theorem exec_keeps_mark (i : Instr) (s t : State) (h : exec i s = .next t)
    (hs : s.refused = true) : t.refused = true := by
  rw [exec_refused h, hs, Bool.or_true]

/-- Settles O44: `exec_refused` says when an instruction sets the mark; neither an instruction, nor a
write of the port, nor CONCURRENT_USE clears it, so no step and no run does. -/
theorem refusedMarkIsSticky : Obligations.RefusedMarkIsSticky :=
  ⟨State.boot_refused _, exec_marks_refusal,
    run_keeps (P := fun s => s.refused = true)
      (step_keeps (fun s v hs => (State.setPort_refused v s).trans hs)
        (fun s _ => State.markRefused_refused .concurrentUse s) exec_keeps_mark)⟩

end Sys2Proof.Machine
end

section
/-! The codec and the queue (spec/10_state.md R12). -/

namespace Sys2Proof.Machine

/-- The state after an operation that does not touch the queue and ends as `v` says: refused, or with
its outputs. -/
def State.conclude (v : Except RefuseReason Output) (s : State) : State :=
  match v with
  | .error r => s.markRefused r
  | .ok o => s.answer o

section Conclude
variable (v : Except RefuseReason Output) (s t : State)

@[simp] theorem State.conclude_error (r : RefuseReason) :
    s.conclude (.error r) = s.markRefused r := rfl

@[simp] theorem State.conclude_ok (o : Output) : s.conclude (.ok o) = s.answer o := rfl

@[simp] theorem State.conclude_q : (s.conclude v).q = s.q := by
  cases v with
  | error r => exact State.markRefused_q r s
  | ok o => exact State.answer_q o s

/-- The outputs come from `v` alone. -/
theorem State.conclude_out_eq : (s.conclude v).out = (t.conclude v).out := by
  cases v <;> simp

/-- The refusal comes from `v` alone. -/
theorem State.conclude_refusal_eq : (s.conclude v).refusal = (t.conclude v).refusal := by
  cases v <;> simp

end Conclude

/-- How ENCODE ends is fixed by its operands and the parameters, before any state is given. -/
theorem exec_encode_conclude (p : Params) (a c : Byte) (d : List Byte) :
    ∃ v, ∀ s : State, s.params = p → exec (.encode a c d) s = .next (s.conclude v) := by
  by_cases hl : p.Legal
  · by_cases ha : a = 0#8
    · refine ⟨.error .encodeAddressZero, ?_⟩
      rintro s rfl
      rw [ha, exec_encode, execEncode_addressZero hl, State.conclude_error]
    · by_cases hd : d.length + 6 ≤ p.maxFrame
      · refine ⟨.ok (.frame (encodeFrame a c d)), ?_⟩
        rintro s rfl
        rw [exec_encode, execEncode_valid hl c ha hd, State.conclude_ok]
      · refine ⟨.error .encodeDataTooLong, ?_⟩
        rintro s rfl
        rw [exec_encode, execEncode_tooLong hl c ha (not_le.1 hd), State.conclude_error]
  · refine ⟨.error .badParameters, ?_⟩
    rintro s rfl
    exact operate_illegal hl _

/-- How DECODE ends is fixed by its operand and the parameters, before any state is given. -/
theorem exec_decode_conclude (p : Params) (b : List Byte) :
    ∃ v, ∀ s : State, s.params = p → exec (.decode b) s = .next (s.conclude v) := by
  by_cases hl : p.Legal
  · refine ⟨.ok (.parsed (decodeFrame p b)), ?_⟩
    rintro s rfl
    rw [exec_decode, execDecode_legal hl, State.conclude_ok]
  · refine ⟨.error .badParameters, ?_⟩
    rintro s rfl
    exact operate_illegal hl _

/-- Settles O16: one conclusion `v`, fixed by the operands and the common parameters, ends the
operation in both states. -/
theorem codecNeitherReadsNorWritesTheQueue : Obligations.CodecNeitherReadsNorWritesTheQueue := by
  intro i s₁ s₂ t₁ t₂ hi hp h₁ h₂
  have hv : ∃ v, ∀ s : State, s.params = s₂.params → exec i s = .next (s.conclude v) := by
    rcases hi with ⟨a, c, d, rfl⟩ | ⟨b, rfl⟩
    · exact exec_encode_conclude _ a c d
    · exact exec_decode_conclude _ b
  obtain ⟨v, hv⟩ := hv
  rw [hv s₁ hp, Host.Outcome.next.injEq] at h₁
  rw [hv s₂ rfl, Host.Outcome.next.injEq] at h₂
  subst h₁ h₂
  exact ⟨State.conclude_out_eq v s₁ s₂, State.conclude_refusal_eq v s₁ s₂,
    State.conclude_q v s₁, State.conclude_q v s₂⟩

end Sys2Proof.Machine
end

section
/-! Reset (spec/10_state.md R19, 70_reset_and_hazards.md R82). -/

namespace Sys2Proof.Machine

/-- Settles O42: the values of `State.boot` at the standard parameters, and RESET's one arm under
legal parameters, which writes the queue, the outputs and the refusal's place only. -/
theorem stateAfterReset : Obligations.StateAfterReset := by
  refine ⟨State.boot_q _, State.boot_refused _, rfl, rfl, fun _ => Iff.rfl, fun s hs => ?_⟩
  have hexec : exec .reset s = .next ((s.setQueue []).answer .nothing) := by
    rw [exec_reset, execReset_legal hs]
  exact ⟨_, hexec, by simp, by simp, by simp⟩

end Sys2Proof.Machine
end

section
/-! CLASSIFY over the whole command byte (spec/30_encoding.md R39, R40; 40_codec.md R48). -/

namespace Sys2Proof

/-- Everything CLASSIFY can do: a byte of the table has its row's name, every other byte is
`UNKNOWN` of itself. -/
theorem classify_cases (c : Byte) :
    (∃ row ∈ commandTable, row.2 = c ∧ classify c = row.1) ∨
    ((∀ row ∈ commandTable, row.2 ≠ c) ∧ classify c = .unknown c) := by
  cases hfind : commandTable.find? (fun row => row.2 == c) with
  | some row =>
    have hcode : row.2 = c := by simpa using List.find?_some hfind
    exact .inl ⟨row, List.mem_of_find?_eq_some hfind, hcode, by rw [classify, hfind]⟩
  | none =>
    have hcodes : ∀ row ∈ commandTable, row.2 ≠ c := by simpa using List.find?_eq_none.1 hfind
    exact .inr ⟨hcodes, by rw [classify, hfind]⟩

/-- The table's codes in decimal, as R39 lists them. -/
theorem commandTable_codes : commandTable.map (fun row => row.2.toNat) =
    [30, 37, 47, 69, 75, 92, 105, 106, 112, 117, 119, 129, 169, 197] := rfl

/-- No code is listed twice, so the first row that `classify` finds for a code is the code's own. -/
theorem classify_row : ∀ row ∈ commandTable, classify row.2 = row.1 := by decide

theorem commandTable_code_eq : ∀ row ∈ commandTable, row.1.code = row.2 := by decide

theorem classify_unlisted {c : Byte}
    (hc : c.toNat ∉ [30, 37, 47, 69, 75, 92, 105, 106, 112, 117, 119, 129, 169, 197]) :
    classify c = .unknown c := by
  rcases classify_cases c with ⟨row, hrow, rfl, -⟩ | ⟨-, hname⟩
  · rw [← commandTable_codes] at hc
    exact absurd (List.mem_map_of_mem hrow) hc
  · exact hname

/-- CLASSIFY loses nothing: the name's code is the byte it came from. -/
theorem code_classify (c : Byte) : (classify c).code = c := by
  rcases classify_cases c with ⟨row, hrow, hcode, hname⟩ | ⟨-, hname⟩
  · rw [hname, commandTable_code_eq row hrow, hcode]
  · rw [hname, CommandName.code]

/-- Settles O4: the fourteen rows by the table, every other byte by `classify_unlisted`. -/
theorem commandBytesClassify : Obligations.CommandBytesClassify := by
  have rows := classify_row
  simp only [commandTable, List.cons_append, List.nil_append, List.forall_mem_cons] at rows
  obtain ⟨ok, error, stop, volume, state, price, block, linetest, progI, progW, unblock, zer,
    progPrc, tank, -⟩ := rows
  exact ⟨ok, error, stop, volume, state, price, block, linetest, progI, progW, unblock, zer,
    progPrc, tank, fun _ => classify_unlisted, code_classify⟩

end Sys2Proof
end

section
/-! The numeric codes of results, reasons and events (spec/30_encoding.md R43). -/

namespace Sys2Proof.Machine

/-- Kind 0 is unused. -/
theorem Diag.kind_ne_zero (d : Diag) : d.kind ≠ 0#2 := by
  cases d <;> simp [Diag.kind]

/-- CAP_CHECK emits an OVERFLOW only where the cap is exceeded, so it counts at least one byte
(41_assembler.md R59). -/
theorem one_le_of_overflow_mem_capEvents {cap n : Nat} {q : List Byte}
    (h : Diag.overflow n ∈ capEvents cap q) : 1 ≤ n := by
  rcases Nat.lt_or_ge cap q.length with hover | hwithin
  · rw [capEvents_over hover, List.mem_singleton, Diag.overflow.injEq] at h
    omega
  · rw [capEvents_within hwithin] at h
    cases h

/-- Settles O6: each code is its constructor's arm; the two facts over all events are
`Diag.kind_ne_zero` and `one_le_of_overflow_mem_capEvents`. -/
theorem resultsHaveTheirCodes : Obligations.ResultsHaveTheirCodes :=
  ⟨fun _ => rfl, fun _ _ => rfl, fun _ => rfl, rfl, rfl, rfl, rfl, rfl, fun _ _ => rfl,
    fun _ => rfl, fun _ => rfl, Diag.kind_ne_zero, fun _ _ _ => one_le_of_overflow_mem_capEvents⟩

end Sys2Proof.Machine
end

section
/-! The frame ENCODE lays out, and DECODE of it (spec/30_encoding.md R33, R38; 40_codec.md R55). -/

namespace Sys2Proof.Machine

theorem getElem?_eq_some_byteAt {s : List Byte} {i : Nat} (h : i < s.length) :
    s[i]? = some (byteAt s i) := by
  rw [byteAt_lt h, List.getElem?_eq_getElem h]

section Frame
variable (a c : Byte) (d : List Byte)

/-- The data stands unchanged between the command and the checksum. -/
theorem encodeFrame_drop_header : (encodeFrame a c d).drop 4 =
    d ++ [checksum (frameHeader a c d), etx] := rfl

theorem encodeFrame_slice_data : slice (encodeFrame a c d) 4 (4 + d.length) = d := by
  rw [slice, encodeFrame_drop_header, Nat.add_sub_cancel_left, List.take_left]

theorem encodeFrame_getElem?_data {i : Nat} (hi : i < d.length) :
    (encodeFrame a c d)[4 + i]? = d[i]? := by
  rw [← List.getElem?_drop, encodeFrame_drop_header, List.getElem?_append_left hi]

end Frame

/-- Settles O17: ENCODE's arm for a valid packet, and the frame's bytes part by part. -/
theorem encodeLaysOutTheFrame : Obligations.EncodeLaysOutTheFrame := by
  intro s a c d hs ha hd
  have hmax : s.params.maxFrame ≤ 255 := hs.2.1
  have hL : lengthField (encodeFrame a c d) = 6 + d.length :=
    encodeFrame_lengthField a c (by omega)
  have atIndex {i : Nat} (hi : i < 6 + d.length) :
      (encodeFrame a c d)[i]? = some (byteAt (encodeFrame a c d) i) :=
    getElem?_eq_some_byteAt (by rwa [encodeFrame_length])
  refine ⟨encodeFrame a c d, execEncode_valid hs c ha hd, encodeFrame_length a c d, ?stx, ?length,
    ?address, ?command, fun i => encodeFrame_getElem?_data a c d, ?check, ?etx⟩
  case stx => rw [atIndex (by omega), encodeFrame_stx, stx]
  case length => rw [atIndex (by omega), Option.map_some, ← lengthField, hL]
  case address => rw [atIndex (by omega), encodeFrame_address]
  case command => rw [atIndex (by omega), encodeFrame_command]
  case check => rw [atIndex (by omega), encodeFrame_check, encodeFrame_take_header]
  case etx => rw [atIndex (by omega), encodeFrame_etx, etx]

/-- DECODE of a valid packet's frame is Success of the packet (40_codec.md R55): the frame's bytes
pass each of DECODE's tests in turn. -/
theorem decodeFrame_encodeFrame {p : Params} (hp : p.maxFrame ≤ 255) {a : Byte} (ha : a ≠ 0#8)
    (c : Byte) {d : List Byte} (hd : d.length + 6 ≤ p.maxFrame) :
    decodeFrame p (encodeFrame a c d) = .success ⟨a, c, d⟩ := by
  have hL : lengthField (encodeFrame a c d) = 6 + d.length :=
    encodeFrame_lengthField a c (by omega)
  have hetx : byteAt (encodeFrame a c d) (6 + d.length - 1) = etx := by
    rw [show 6 + d.length - 1 = 5 + d.length by omega, encodeFrame_etx]
  have hcheckAt : 6 + d.length - 2 = 4 + d.length := by omega
  have hcheck : checksum (slice (encodeFrame a c d) 0 (6 + d.length - 2)) =
      byteAt (encodeFrame a c d) (6 + d.length - 2) := by
    rw [hcheckAt, slice_zero, encodeFrame_take_header, encodeFrame_check]
  have haddress : byteAt (encodeFrame a c d) 2 ≠ 0#8 := by rwa [encodeFrame_address]
  have hpacket : packetOf (encodeFrame a c d) (6 + d.length) = ⟨a, c, d⟩ := by
    rw [packetOf, encodeFrame_address, encodeFrame_command, hcheckAt, encodeFrame_slice_data]
  rw [decodeFrame_body (encodeFrame_stx a c d) (by omega) (by simp [hL]), hL, decodeBody,
    if_neg (not_not.2 hetx), if_neg (not_not.2 hcheck), if_neg (by omega), if_neg haddress, hpacket]

/-- Settles O48: DECODE does not look at the command byte, and CLASSIFY of an unlisted one is
`UNKNOWN` of it. -/
theorem unknownCommandIsNoError : Obligations.UnknownCommandIsNoError := by
  intro s a c d hs ha hd hc
  have hmax : s.params.maxFrame ≤ 255 := hs.2.1
  refine ⟨⟨a, c, d⟩, ?_, rfl, classify_unlisted hc⟩
  rw [exec_decode, execDecode_legal hs, decodeFrame_encodeFrame hmax ha c hd, State.answer]

end Sys2Proof.Machine
end

section
/-! When DECODE gives which result (spec/40_codec.md R50, R52). -/

namespace Sys2Proof.Machine

/-- The end may be cut off before the first bytes are dropped. -/
theorem slice_eq_drop_take (s : List Byte) (a n : Nat) : slice s a n = (s.take n).drop a := by
  rw [slice, List.drop_take]

theorem packetOf_eq_iff {b : List Byte} {L : Nat} {k : Packet} : packetOf b L = k ↔
    k.address = byteAt b 2 ∧ k.command = byteAt b 3 ∧ k.data = (b.take (L - 2)).drop 4 := by
  cases k
  simp [packetOf, slice_eq_drop_take, eq_comm]

section Results
variable {p : Params} {b : List Byte} {L : Nat} {r : ParseResult}

/-- DECODE's header steps read as conditions on the result `r`: each test that fails fixes it, and
past them all the body does. Where `decodeFrame_cases` says what a sequence can give, this also says
that each result has no other cause. -/
theorem decodeFrame_eq_iff : decodeFrame p b = r ↔
    b.length < 6 ∧ .incomplete = r ∨
    6 ≤ b.length ∧
      (byteAt b 0 ≠ stx ∧ .invalidFormat .badStx = r ∨
      byteAt b 0 = stx ∧
        (lengthField b < 6 ∧ .invalidFormat .badLength = r ∨
        6 ≤ lengthField b ∧
          (b.length < lengthField b ∧ .incomplete = r ∨
          lengthField b ≤ b.length ∧ decodeBody p b (lengthField b) = r))) := by
  simp only [decodeFrame, ite_eq_iff, ne_eq, not_not, not_lt]

/-- DECODE's steps 4 to 7 read the same way. -/
theorem decodeBody_eq_iff : decodeBody p b L = r ↔
    byteAt b (L - 1) ≠ etx ∧ .invalidFormat .badEtx = r ∨
    byteAt b (L - 1) = etx ∧
      (checksum (b.take (L - 2)) ≠ byteAt b (L - 2) ∧
        .checksumError (checksum (b.take (L - 2))) (byteAt b (L - 2)) = r ∨
      checksum (b.take (L - 2)) = byteAt b (L - 2) ∧
        (p.maxFrame < L ∧ .invalidFormat .badLength = r ∨
        L ≤ p.maxFrame ∧
          (byteAt b 2 = 0#8 ∧ .invalidFormat .badAddress = r ∨
          byteAt b 2 ≠ 0#8 ∧ .success (packetOf b L) = r))) := by
  rw [← slice_zero]
  simp only [decodeBody, ite_eq_iff, ne_eq, not_not, not_lt]

/-- A result that no header step gives comes from the body, of a sequence that holds all `L ≥ 6`
bytes. -/
theorem decodeFrame_eq_iff_of_body {P : Prop} (hincomplete : .incomplete ≠ r)
    (hstx : .invalidFormat .badStx ≠ r) (hlength : .invalidFormat .badLength ≠ r)
    (hbody : decodeBody p b (lengthField b) = r ↔ P) :
    decodeFrame p b = r ↔ 6 ≤ b.length ∧ byteAt b 0 = stx ∧ 6 ≤ lengthField b ∧
      lengthField b ≤ b.length ∧ P := by
  simp only [decodeFrame_eq_iff, hincomplete, hstx, hlength, hbody, and_false, false_or]

/-- The body never waits for bytes. -/
theorem decodeBody_ne_incomplete : decodeBody p b L ≠ .incomplete := by
  simp [decodeBody_eq_iff]

/-- The body does not test STX. -/
theorem decodeBody_ne_badStx : decodeBody p b L ≠ .invalidFormat .badStx := by
  simp [decodeBody_eq_iff]

theorem decodeBody_eq_badEtx_iff : decodeBody p b L = .invalidFormat .badEtx ↔
    byteAt b (L - 1) ≠ etx := by
  simp [decodeBody_eq_iff]

theorem decodeBody_eq_checksumError_iff {e x : Byte} : decodeBody p b L = .checksumError e x ↔
    byteAt b (L - 1) = etx ∧ e = checksum (b.take (L - 2)) ∧ x = byteAt b (L - 2) ∧ e ≠ x := by
  simp only [decodeBody_eq_iff, reduceCtorEq, ParseResult.checksumError.injEq, and_false, false_or,
    or_false]
  refine and_congr_right fun _ => ⟨?_, ?_⟩
  · rintro ⟨hne, rfl, rfl⟩; exact ⟨rfl, rfl, hne⟩
  · rintro ⟨rfl, rfl, hne⟩; exact ⟨hne, rfl, rfl⟩

theorem decodeBody_eq_badLength_iff : decodeBody p b L = .invalidFormat .badLength ↔
    byteAt b (L - 1) = etx ∧ checksum (b.take (L - 2)) = byteAt b (L - 2) ∧ p.maxFrame < L := by
  simp [decodeBody_eq_iff]

theorem decodeBody_eq_badAddress_iff : decodeBody p b L = .invalidFormat .badAddress ↔
    byteAt b (L - 1) = etx ∧ checksum (b.take (L - 2)) = byteAt b (L - 2) ∧ L ≤ p.maxFrame ∧
      byteAt b 2 = 0#8 := by
  simp [decodeBody_eq_iff]

theorem decodeBody_eq_success_iff {k : Packet} : decodeBody p b L = .success k ↔
    byteAt b (L - 1) = etx ∧ checksum (b.take (L - 2)) = byteAt b (L - 2) ∧ L ≤ p.maxFrame ∧
      byteAt b 2 ≠ 0#8 ∧ k.address = byteAt b 2 ∧ k.command = byteAt b 3 ∧
      k.data = (b.take (L - 2)).drop 4 := by
  simp [decodeBody_eq_iff, packetOf_eq_iff]

theorem decodeFrame_eq_incomplete_iff : decodeFrame p b = .incomplete ↔
    b.length < 6 ∨ byteAt b 0 = stx ∧ 6 ≤ lengthField b ∧ b.length < lengthField b := by
  rcases lt_or_ge b.length 6 with hshort | hlen
  · simp [decodeFrame_eq_iff, hshort]
  · simp [decodeFrame_eq_iff, decodeBody_ne_incomplete, hlen]

theorem decodeFrame_eq_badStx_iff : decodeFrame p b = .invalidFormat .badStx ↔
    6 ≤ b.length ∧ byteAt b 0 ≠ stx := by
  simp [decodeFrame_eq_iff, decodeBody_ne_badStx]

/-- The one reason with two places: below 6 in the header, above MAX_FRAME in the body. -/
theorem decodeFrame_eq_badLength_iff : decodeFrame p b = .invalidFormat .badLength ↔
    6 ≤ b.length ∧ byteAt b 0 = stx ∧
      (lengthField b < 6 ∨ (6 ≤ lengthField b ∧ lengthField b ≤ b.length ∧
        byteAt b (lengthField b - 1) = etx ∧
        checksum (b.take (lengthField b - 2)) = byteAt b (lengthField b - 2) ∧
        p.maxFrame < lengthField b)) := by
  simp [decodeFrame_eq_iff, decodeBody_eq_badLength_iff]

end Results

/-- Settles O20: Incomplete, bad STX and bad length, which header steps give, each by its own lemma;
any other result is the body's, so its conditions are those of reaching the body and the body's own. -/
theorem decodeReportsTheFirstFailedCondition :
    Obligations.DecodeReportsTheFirstFailedCondition := by
  rintro p b L rfl
  exact ⟨decodeFrame_eq_incomplete_iff, decodeFrame_eq_badStx_iff,
    decodeFrame_eq_iff_of_body nofun nofun nofun decodeBody_eq_badEtx_iff,
    fun _ _ => decodeFrame_eq_iff_of_body nofun nofun nofun decodeBody_eq_checksumError_iff,
    decodeFrame_eq_badLength_iff,
    decodeFrame_eq_iff_of_body nofun nofun nofun decodeBody_eq_badAddress_iff,
    fun _ => decodeFrame_eq_iff_of_body nofun nofun nofun decodeBody_eq_success_iff⟩

end Sys2Proof.Machine
end

section
/-! What DECODE reads (spec/40_codec.md R51). -/

namespace Sys2Proof.Machine

theorem slice_take {s : List Byte} {n m : Nat} (a : Nat) (h : n ≤ m) :
    slice (s.take m) a n = slice s a n := by
  rw [slice_eq_drop_take, slice_eq_drop_take, List.take_take, Nat.min_eq_left h]

section Reads
variable {p : Params} {b b' : List Byte}

/-- The body reads below index `L` only. -/
theorem decodeBody_take {L : Nat} (hL : 6 ≤ L) : decodeBody p (b.take L) L = decodeBody p b L := by
  have hbyte {i : Nat} (hi : i < L) : byteAt (b.take L) i = byteAt b i := byteAt_take hi
  have hslice (a : Nat) : slice (b.take L) a (L - 2) = slice b a (L - 2) :=
    slice_take a (Nat.sub_le L 2)
  rw [decodeBody, decodeBody, packetOf, packetOf, hbyte (by omega), hbyte (by omega),
    hbyte (by omega), hbyte (by omega), hslice, hslice]

/-- Where the first `L` bytes are all there, they alone decode as the whole sequence does. -/
theorem decodeFrame_take (hL : 6 ≤ lengthField b) (h : lengthField b ≤ b.length) :
    decodeFrame p (b.take (lengthField b)) = decodeFrame p b := by
  have h0 : byteAt (b.take (lengthField b)) 0 = byteAt b 0 := byteAt_take (by omega)
  have h1 : lengthField (b.take (lengthField b)) = lengthField b :=
    congrArg BitVec.toNat (byteAt_take (by omega))
  have hlen : (b.take (lengthField b)).length = lengthField b := List.length_take_of_le h
  by_cases hstx : byteAt b 0 = stx
  · rw [decodeFrame_body (h0.trans hstx) (by rwa [h1]) (by rw [h1, hlen]), h1, decodeBody_take hL,
      decodeFrame_body hstx hL h]
  · rw [decodeFrame_badStx (by rwa [hlen]) (by rwa [h0]), decodeFrame_badStx (hL.trans h) hstx]

/-- Where `L` is below 6 or not all of its bytes are there, the header steps alone decide, from the
length and bytes 0 and 1. -/
theorem decodeFrame_congr_header (hlen : b.length = b'.length) (h0 : byteAt b 0 = byteAt b' 0)
    (h1 : lengthField b = lengthField b') (hL : 6 ≤ lengthField b → b.length < lengthField b) :
    decodeFrame p b = decodeFrame p b' := by
  rcases decodeFrame_cases p b with ⟨hb, hr⟩ | ⟨hb, hstx, hr⟩ | ⟨hb, hstx, hlow, hr⟩ |
    ⟨-, hstx, hge, hwait, hr⟩ | ⟨-, -, hge, hall, -⟩
  · rw [hr, decodeFrame_short (by omega)]
  · rw [hr, decodeFrame_badStx (by omega) (by rwa [← h0])]
  · rw [hr, decodeFrame_shortLength (by omega) (by rwa [← h0]) (by omega)]
  · rw [hr, decodeFrame_waiting (by rwa [← h0]) (by omega) (by omega)]
  · exact absurd (hL hge) (Nat.not_lt.2 hall)

end Reads

/-- Settles O21: where all `L ≥ 6` bytes are there, both sequences decode as their common first `L`
bytes do; elsewhere the header steps alone decide. -/
theorem decodeReadsOnlyBelowTheFrameEnd : Obligations.DecodeReadsOnlyBelowTheFrameEnd := by
  intro p b b' hlen h0 h1 hagree
  have hL : lengthField b = lengthField b' := congrArg BitVec.toNat h1
  refine ⟨?_, decodeFrame_take⟩
  by_cases hwhole : 6 ≤ lengthField b ∧ lengthField b ≤ b.length
  · obtain ⟨h6, hall⟩ := hwhole
    calc decodeFrame p b
      _ = decodeFrame p (b.take (lengthField b)) := (decodeFrame_take h6 hall).symm
      _ = decodeFrame p (b'.take (lengthField b')) := by rw [hagree h6 hall, hL]
      _ = decodeFrame p b' := decodeFrame_take (by omega) (by omega)
  · exact decodeFrame_congr_header hlen h0 hL fun h6 => not_le.1 fun h => hwhole ⟨h6, h⟩

end Sys2Proof.Machine
end

section
/-! PUSH and its cap (spec/41_assembler.md R58, R59). -/

namespace Sys2Proof.Machine

/-- Over the cap CAP_CHECK cuts the queue in two: the oldest bytes, which it drops and counts in its
one event, and the newest `cap` bytes, which it keeps. -/
theorem capCheck_over_splits {cap : Nat} {q : List Byte} (h : cap < q.length) :
    ∃ old new, q = old ++ new ∧ new.length = cap ∧ 1 ≤ old.length ∧
      capKeep cap q = new ∧ capEvents cap q = [.overflow old.length] := by
  have hold : (q.take (q.length - cap)).length = q.length - cap :=
    List.length_take_of_le (Nat.sub_le _ _)
  have hnew : (capKeep cap q).length = cap := by rw [capKeep, List.length_drop]; omega
  exact ⟨q.take (q.length - cap), capKeep cap q, (List.take_append_drop _ q).symm, hnew, by omega,
    rfl, by rw [capEvents_over h, hold]⟩

/-- PUSH under legal parameters, from what CAP_CHECK keeps and emits of the appended queue. -/
theorem exec_push_of_capCheck {s : State} (hs : s.params.Legal) {k q : List Byte} {ds : List Diag}
    (hq : capKeep s.params.bufferCap (s.q ++ k) = q)
    (hds : capEvents s.params.bufferCap (s.q ++ k) = ds) :
    exec (.push k) s = .next ((s.setQueue q).answer (.pushed ds)) := by
  rw [exec_push, execPush_legal hs, hq, hds]

/-- Settles O28: within the cap CAP_CHECK keeps everything and is silent, over it
`capCheck_over_splits` names the two parts. -/
theorem pushAppendsAndCaps : Obligations.PushAppendsAndCaps := by
  intro s k hs
  rw [← List.length_append]
  refine ⟨fun hwithin => ?within, fun hover => ?exceeds⟩
  case within => exact exec_push_of_capCheck hs (capKeep_within hwithin) (capEvents_within hwithin)
  case exceeds =>
    obtain ⟨old, new, hsplit, hnew, hold, hkeep, hevents⟩ := capCheck_over_splits hover
    exact ⟨old, new, hsplit, hnew, hold, exec_push_of_capCheck hs hkeep hevents⟩

end Sys2Proof.Machine
end

section
/-! PULL, pass by pass (spec/41_assembler.md R60, R62, R63, R64). -/

namespace Sys2Proof.Machine

/-- PULL under legal parameters, from what its loop makes of the queue. -/
theorem exec_pull_of_pullQueue {s : State} (hs : s.params.Legal) {r : Pulled}
    (hr : pullQueue s.params s.q = r) :
    exec .pull s = .next ((s.setQueue r.rest).answer (.pulled r.packet r.events)) := by
  rw [exec_pull, execPull_legal hs, hr]

/-- The results that give a dropped byte's event are the two framing errors, each its own event. -/
theorem ParseResult.event?_eq_some_iff {r : ParseResult} {d : Diag} : r.event? = some d ↔
    (∃ e x, r = .checksumError e x ∧ d = .checksum e x) ∨
      ∃ w, r = .invalidFormat w ∧ d = .format w := by
  cases r <;> simp [ParseResult.event?, eq_comm]

/-- Settles O29: the loop's lemma for each pass. A framing error's pass is the loop on the shorter
queue with one event in front, and PULL of the shorter queue runs that same loop. -/
theorem pullFollowsItsLoop : Obligations.PullFollowsItsLoop := by
  intro s hs
  refine ⟨fun k hk => ?success, fun hwait => ?incomplete, fun b q d hq herror => ?error⟩
  case success =>
    rw [encodeFrame_length]
    exact exec_pull_of_pullQueue hs (pullQueue_success hk)
  case incomplete => exact exec_pull_of_pullQueue hs (pullQueue_incomplete hwait)
  case error =>
    have hevent : (decodeFrame s.params (b :: q)).event? = some d :=
      ParseResult.event?_eq_some_iff.2 (hq ▸ herror)
    have hpass : pullQueue s.params s.q = (pullQueue s.params q).emit d := by
      rw [hq, pullQueue_error hevent]
    exact ⟨_, _, _, exec_pull_of_pullQueue (s := { s with q := q }) hs rfl,
      exec_pull_of_pullQueue hs hpass⟩

end Sys2Proof.Machine
end

section
/-! RESET's whole next state (spec/70_reset_and_hazards.md R82). -/

namespace Sys2Proof.Machine

/-- Writing the queue and then answering sets three fields and keeps the parameters, the mark and the
port. -/
theorem State.answer_setQueue (s : State) (v : List Byte) (o : Output) :
    (s.setQueue v).answer o = { s with q := v, out := o, refusal := none } := rfl

/-- Settles O41: RESET's arm under legal parameters, its next state written out field by field. -/
theorem resetEmptiesTheQueue : Obligations.ResetEmptiesTheQueue := by
  intro s hs
  rw [exec_reset, execReset_legal hs, State.answer_setQueue]

end Sys2Proof.Machine
end

section
/-! DECODE when bytes follow (spec/40_codec.md R55, R56, R57). -/

namespace Sys2Proof.Machine

theorem lengthField_append {b : List Byte} (h : 2 ≤ b.length) (t : List Byte) :
    lengthField (b ++ t) = lengthField b :=
  congrArg BitVec.toNat (byteAt_append_left h t)

/-- A result other than Incomplete does not change when bytes follow: the header stands in the first
six bytes, and the body is read from the first `L` bytes alone. -/
theorem decodeFrame_append {p : Params} {b : List Byte} (h : decodeFrame p b ≠ .incomplete)
    (t : List Byte) : decodeFrame p (b ++ t) = decodeFrame p b := by
  have hle : b.length ≤ (b ++ t).length := by rw [List.length_append]; omega
  rcases decodeFrame_cases p b with ⟨-, hr⟩ | ⟨h6, hstx, hr⟩ | ⟨h6, hstx, hlow, hr⟩ |
    ⟨-, -, -, -, hr⟩ | ⟨h6, -, hL, hall, -⟩
  case inl => exact absurd hr h
  case inr.inl =>
    rw [hr, decodeFrame_badStx (h6.trans hle) (by rwa [byteAt_append_left (by omega)])]
  case inr.inr.inl =>
    rw [hr, decodeFrame_shortLength (h6.trans hle) (by rwa [byteAt_append_left (by omega)])
      (by rwa [lengthField_append (by omega)])]
  case inr.inr.inr.inl => exact absurd hr h
  case inr.inr.inr.inr =>
    have hfield : lengthField (b ++ t) = lengthField b := lengthField_append (by omega) t
    calc decodeFrame p (b ++ t)
      _ = decodeFrame p ((b ++ t).take (lengthField (b ++ t))) :=
        (decodeFrame_take (by omega) (by omega)).symm
      _ = decodeFrame p (b.take (lengthField b)) := by
        rw [hfield, List.take_append_of_le_length hall]
      _ = decodeFrame p b := decodeFrame_take hL hall

/-- Settles O22: each of DECODE's steps that can end with another result reads bytes that are
there. -/
theorem decodeIsMonotone : Obligations.DecodeIsMonotone :=
  fun _ _ t h => decodeFrame_append h t

/-- A valid packet's frame is read back whatever bytes follow (40_codec.md R56). -/
theorem decodeFrame_encodeFrame_append {p : Params} (hp : p.maxFrame ≤ 255) {a : Byte}
    (ha : a ≠ 0#8) (c : Byte) {d : List Byte} (hd : d.length + 6 ≤ p.maxFrame) (tail : List Byte) :
    decodeFrame p (encodeFrame a c d ++ tail) = .success ⟨a, c, d⟩ := by
  have hframe : decodeFrame p (encodeFrame a c d) = .success ⟨a, c, d⟩ :=
    decodeFrame_encodeFrame hp ha c hd
  rw [decodeFrame_append (by rw [hframe]; nofun), hframe]

/-- Settles O23: ENCODE's arm for a valid packet, then DECODE's arm on the frame and its tail. -/
theorem decodeInvertsEncode : Obligations.DecodeInvertsEncode := by
  intro s a c d tail hs ha hd
  refine ⟨encodeFrame a c d, s.answer (.frame (encodeFrame a c d)), ?encode, rfl, ?decode⟩
  case encode => exact execEncode_valid hs c ha hd
  case decode =>
    rw [exec_decode, execDecode_legal (s := s.answer _) hs, State.answer_params,
      decodeFrame_encodeFrame_append hs.2.1 ha c hd]
    rfl

end Sys2Proof.Machine
end

section
/-! What a sequence that DECODE accepts begins with (spec/40_codec.md R50, 41_assembler.md R61). -/

namespace Sys2Proof.Machine

theorem take_succ_byteAt {s : List Byte} {i : Nat} (h : i < s.length) :
    s.take (i + 1) = s.take i ++ [byteAt s i] := by
  rw [byteAt_lt h, List.take_concat_get']

/-- The four header bytes, and the bytes between the header and `n`. -/
theorem take_eq_header_append {s : List Byte} {n : Nat} (hn : 4 ≤ n) (h : n ≤ s.length) :
    s.take n = [byteAt s 0, byteAt s 1, byteAt s 2, byteAt s 3] ++ (s.take n).drop 4 := by
  have hheader : (s.take n).take 4 = [byteAt s 0, byteAt s 1, byteAt s 2, byteAt s 3] := by
    rw [List.take_take, Nat.min_eq_left hn, take_succ_byteAt (by omega),
      take_succ_byteAt (by omega), take_succ_byteAt (by omega), take_succ_byteAt (by omega)]
    rfl
  rw [← hheader, List.take_append_drop]

/-- Success puts out the packet whose frame stands at the head of the sequence. -/
theorem encodeFrame_of_decodeFrame {p : Params} {b : List Byte} {k : Packet}
    (h : decodeFrame p b = .success k) :
    encodeFrame k.address k.command k.data = b.take (6 + k.data.length) ∧
      6 + k.data.length ≤ b.length ∧ lengthField b = 6 + k.data.length ∧ k.Valid p := by
  obtain ⟨-, hstx, hL, hall, hetx, hcheck, hmax, hzero, haddress, hcommand, hdata⟩ :=
    (decodeFrame_eq_iff_of_body (r := .success k) nofun nofun nofun decodeBody_eq_success_iff).1 h
  have hfield : lengthField b = 6 + k.data.length := by
    rw [hdata, List.length_drop, List.length_take_of_le (by omega)]; omega
  have hbyte : BitVec.ofNat 8 (frameLength k.data.length) = byteAt b 1 := by
    rw [frameLength, ← hfield, lengthField, BitVec.ofNat_toNat, BitVec.setWidth_eq]
  have hheader : frameHeader k.address k.command k.data = b.take (lengthField b - 2) := by
    rw [take_eq_header_append (by omega) (by omega), ← hdata, frameHeader, hbyte, haddress,
      hcommand, hstx]
  refine ⟨?frame, by omega, hfield, by rwa [haddress], by omega⟩
  case frame =>
    have hend : lengthField b - 1 = lengthField b - 2 + 1 := by omega
    calc encodeFrame k.address k.command k.data
      _ = b.take (lengthField b - 2) ++
          [byteAt b (lengthField b - 2), byteAt b (lengthField b - 1)] := by
        rw [encodeFrame, hheader, hcheck, hetx]
      _ = b.take (lengthField b - 2 + 1 + 1) := by
        rw [take_succ_byteAt (by omega), take_succ_byteAt (by omega), hend, List.append_assoc]; rfl
      _ = b.take (6 + k.data.length) := by
        rw [show lengthField b - 2 + 1 + 1 = 6 + k.data.length by omega]

/-- Settles O24: the tests that Success has passed give back each part of the frame. -/
theorem encodeInvertsDecode : Obligations.EncodeInvertsDecode :=
  fun _ _ _ => encodeFrame_of_decodeFrame

end Sys2Proof.Machine
end

section
/-! CHECKSUM, and what it detects (spec/40_codec.md R47). -/

namespace Sys2Proof.Machine

theorem checksum_nil : checksum [] = 0x00#8 := rfl

theorem checksum_singleton (b : Byte) : checksum [b] = b := BitVec.zero_xor

/-- The accumulator of the fold comes out in front. -/
theorem foldl_xor_eq (x : Byte) (s : List Byte) :
    s.foldl (fun x b => x ^^^ b) x = x ^^^ checksum s := by
  rw [checksum, ← List.foldl_assoc (op := fun x b : Byte => x ^^^ b), BitVec.xor_zero]

theorem checksum_append (s t : List Byte) : checksum (s ++ t) = checksum s ^^^ checksum t := by
  rw [checksum, List.foldl_append, foldl_xor_eq, ← checksum]

theorem checksum_cons (b : Byte) (s : List Byte) : checksum (b :: s) = b ^^^ checksum s := by
  rw [← List.singleton_append, checksum_append, checksum_singleton]

/-- Settles O25: CHECKSUM of a concatenation, from which equal bytes cancel; order is that of the
fold of a commutative operation. -/
theorem checksumIsExclusiveOr : Obligations.ChecksumIsExclusiveOr := by
  refine ⟨checksum_nil, checksum_singleton, checksum_append, fun s t hperm => ?perm,
    fun b s => ?cancel⟩
  case perm => exact hperm.foldl_op_eq
  case cancel =>
    rw [checksum_cons, checksum_cons, ← BitVec.xor_assoc, BitVec.xor_self, BitVec.zero_xor]

theorem encodeFrame_take_check (a c : Byte) (d : List Byte) :
    (encodeFrame a c d).take (5 + d.length) =
      frameHeader a c d ++ [checksum (frameHeader a c d)] := by
  rw [show 5 + d.length = 4 + d.length + 1 by omega, take_succ_byteAt (by simp),
    encodeFrame_take_header, encodeFrame_check]

/-- The header and its own checksum cancel. -/
theorem checksum_encodeFrame_take (a c : Byte) (d : List Byte) :
    checksum ((encodeFrame a c d).take (5 + d.length)) = 0x00#8 := by
  rw [encodeFrame_take_check, checksum_append, checksum_singleton, BitVec.xor_self]

/-- Settles O26. -/
theorem frameBytesXorToZero : Obligations.FrameBytesXorToZero := checksum_encodeFrame_take

/-! ## One changed byte -/

theorem byteAt_set_ne {s : List Byte} {i j : Nat} (h : i ≠ j) (v : Byte) :
    byteAt (s.set i v) j = byteAt s j := by
  rw [byteAt, byteAt, List.getD_eq_getElem?_getD, List.getD_eq_getElem?_getD,
    List.getElem?_set_ne h]

/-- Changing one byte changes the checksum by the exclusive OR of the old byte and the new one. -/
theorem checksum_set {s : List Byte} {i : Nat} (h : i < s.length) (v : Byte) :
    checksum (s.set i v) = checksum s ^^^ (byteAt s i ^^^ v) := by
  induction s generalizing i with
  | nil => cases h
  | cons b s ih =>
    cases i with
    | zero =>
      calc checksum (v :: s)
        _ = v ^^^ checksum s := checksum_cons v s
        _ = b ^^^ checksum s ^^^ (b ^^^ v) := by
          rw [show b ^^^ checksum s ^^^ (b ^^^ v) = b ^^^ b ^^^ (v ^^^ checksum s) by ac_rfl,
            BitVec.xor_self, BitVec.zero_xor]
        _ = checksum (b :: s) ^^^ (b ^^^ v) := by rw [checksum_cons]
    | succ i =>
      rw [List.set_cons_succ, checksum_cons, checksum_cons, ih (Nat.lt_of_succ_lt_succ h),
        BitVec.xor_assoc]
      rfl

/-- Bytes that do not cancel fail DECODE's checksum test. -/
theorem checksum_take_ne_of_ne_zero {s : List Byte} {n : Nat} (h : n < s.length)
    (hne : checksum (s.take (n + 1)) ≠ 0#8) : checksum (s.take n) ≠ byteAt s n := by
  intro heq
  rw [take_succ_byteAt h, checksum_append, checksum_singleton, heq, BitVec.xor_self] at hne
  exact hne rfl

/-- A changed byte among those that cancel is left over. -/
theorem checksum_encodeFrame_set_take {a c v : Byte} {d : List Byte} {i : Nat}
    (hi : i ≤ 4 + d.length) :
    checksum (((encodeFrame a c d).set i v).take (5 + d.length)) =
      byteAt (encodeFrame a c d) i ^^^ v := by
  rw [List.take_set, checksum_set (by simp; omega), checksum_encodeFrame_take,
    byteAt_take (by omega), BitVec.zero_xor]

/-- Settles O27: bytes 0 and 1 and ETX stand as they were, so DECODE comes to its checksum test; the
bytes it tests cancelled before the change, and no longer do. -/
theorem singleByteChangeIsDetected : Obligations.SingleByteChangeIsDetected := by
  intro p a c d i v hd hi hi' hv
  have hstx : byteAt ((encodeFrame a c d).set i v) 0 = stx := by
    rw [byteAt_set_ne (by omega), encodeFrame_stx]
  have hlength : lengthField ((encodeFrame a c d).set i v) = 6 + d.length := by
    rw [lengthField, byteAt_set_ne (by omega), ← lengthField, encodeFrame_lengthField a c hd]
  have hetx : byteAt ((encodeFrame a c d).set i v) (6 + d.length - 1) = etx := by
    rw [byteAt_set_ne (by omega), show 6 + d.length - 1 = 5 + d.length by omega, encodeFrame_etx]
  have hcheck : checksum (((encodeFrame a c d).set i v).take (6 + d.length - 2)) ≠
      byteAt ((encodeFrame a c d).set i v) (6 + d.length - 2) := by
    refine checksum_take_ne_of_ne_zero (by simp) ?_
    rw [show 6 + d.length - 2 + 1 = 5 + d.length by omega, checksum_encodeFrame_set_take hi', ne_eq,
      BitVec.xor_eq_zero_iff]
    exact hv
  refine ⟨_, _, (decodeFrame_eq_iff_of_body (r := .checksumError _ _) nofun nofun nofun
    decodeBody_eq_checksumError_iff).2 ?_, hcheck⟩
  rw [hlength]
  exact ⟨by simp, hstx, by omega, by simp, hetx, rfl, rfl, hcheck⟩

end Sys2Proof.Machine
end

section
/-! What a PULL drops, returns and leaves (spec/41_assembler.md R60, R66, R67, R71). -/

namespace Sys2Proof.Machine

section Pull
variable (p : Params) (q : List Byte)

/-- A framing error is found only where at least six bytes are held (40_codec.md R50). -/
theorem six_le_of_event? {p : Params} {q : List Byte} {d : Diag}
    (h : (decodeFrame p q).event? = some d) : 6 ≤ q.length := by
  by_contra hshort
  rw [decodeFrame_short (by omega)] at h
  cases h

/-- The last five bytes are never dropped. -/
theorem pullQueue_events_length_le : (pullQueue p q).events.length ≤ q.length - 5 := by
  induction q using pullQueue_induction p with
  | incomplete q h => simp [pullQueue_incomplete h]
  | success q k h => simp [pullQueue_success h]
  | error b q d h ih =>
    have h6 : 6 ≤ (b :: q).length := six_le_of_event? h
    rw [pullQueue_error h, Pulled.emit_events, List.length_cons]
    rw [List.length_cons] at h6 ⊢
    omega

/-- Each dropped byte is the head of a window that is a framing error. -/
theorem pullQueue_dropped (m : Nat) (hm : m < (pullQueue p q).events.length) :
    (decodeFrame p (q.drop m)).event?.isSome = true := by
  induction q using pullQueue_induction p generalizing m with
  | incomplete q h => rw [pullQueue_incomplete h] at hm; cases hm
  | success q k h => rw [pullQueue_success h] at hm; cases hm
  | error b q d h ih =>
    cases m with
    | zero => rw [List.drop_zero, h, Option.isSome_some]
    | succ m =>
      rw [pullQueue_error h, Pulled.emit_events, List.length_cons] at hm
      exact ih m (Nat.lt_of_succ_lt_succ hm)

/-- Everything a PULL can end with: behind the dropped bytes, one an event, it finds an Incomplete
head and returns None, or it finds a packet, returns it and removes its frame. -/
theorem pullQueue_cases :
    ((pullQueue p q).packet = none ∧
      decodeFrame p (q.drop (pullQueue p q).events.length) = .incomplete ∧
      (pullQueue p q).rest = q.drop (pullQueue p q).events.length) ∨
    ∃ k, (pullQueue p q).packet = some k ∧
      decodeFrame p (q.drop (pullQueue p q).events.length) = .success k ∧
      (pullQueue p q).rest =
        q.drop ((pullQueue p q).events.length + frameLength k.data.length) := by
  induction q using pullQueue_induction p with
  | incomplete q h => exact .inl (by simp [pullQueue_incomplete h, h])
  | success q k h => exact .inr ⟨k, by simp [pullQueue_success h, h]⟩
  | error b q d h ih =>
    simpa only [pullQueue_error h, Pulled.emit_packet, Pulled.emit_events, Pulled.emit_rest,
      List.length_cons, List.drop_succ_cons, Nat.add_right_comm _ 1] using ih

variable {p q}

theorem pullQueue_of_packet_none (h : (pullQueue p q).packet = none) :
    decodeFrame p (q.drop (pullQueue p q).events.length) = .incomplete ∧
      (pullQueue p q).rest = q.drop (pullQueue p q).events.length := by
  rcases pullQueue_cases p q with ⟨-, hstop⟩ | ⟨k, hk, -⟩
  · exact hstop
  · rw [h] at hk; cases hk

theorem pullQueue_of_packet_some {k : Packet} (h : (pullQueue p q).packet = some k) :
    decodeFrame p (q.drop (pullQueue p q).events.length) = .success k ∧
      (pullQueue p q).rest =
        q.drop ((pullQueue p q).events.length + frameLength k.data.length) := by
  rcases pullQueue_cases p q with ⟨hnone, -⟩ | ⟨k', hk', hstop⟩
  · rw [h] at hnone; cases hnone
  · rw [h] at hk'; cases hk'; exact hstop

/-- A packet that DECODE returns has a frame that is held. -/
theorem frameLength_le_of_decodeFrame {k : Packet} (h : decodeFrame p q = .success k) :
    frameLength k.data.length ≤ q.length :=
  (encodeFrame_of_decodeFrame h).2.1

/-- A PULL that returned a packet removed one byte an event, and the packet's frame. -/
theorem pullQueue_length_of_packet_some {k : Packet} (h : (pullQueue p q).packet = some k) :
    q.length = (pullQueue p q).events.length + frameLength k.data.length +
      (pullQueue p q).rest.length := by
  obtain ⟨hdecode, hrest⟩ := pullQueue_of_packet_some h
  have hheld := frameLength_le_of_decodeFrame hdecode
  have hbound := pullQueue_events_length_le p q
  have h6 : 6 ≤ frameLength k.data.length := Nat.le_add_right 6 _
  rw [List.length_drop] at hheld
  rw [hrest, List.length_drop]
  omega

/-- A PULL never adds to the queue. -/
theorem pullQueue_rest_length_le : (pullQueue p q).rest.length ≤ q.length := by
  rcases pullQueue_cases p q with ⟨-, -, hrest⟩ | ⟨k, -, -, hrest⟩ <;>
    rw [hrest, List.length_drop] <;> omega

/-- A PULL whose head is not Incomplete shortens the queue. -/
theorem pullQueue_rest_length_lt (h : decodeFrame p q ≠ .incomplete) :
    (pullQueue p q).rest.length < q.length := by
  have h6 : 6 ≤ q.length := by
    by_contra hshort
    exact h (decodeFrame_short (by omega))
  rcases pullQueue_cases p q with ⟨-, hdecode, hrest⟩ | ⟨k, -, -, hrest⟩
  · have hsome : (pullQueue p q).events.length ≠ 0 := by
      intro hzero
      rw [hzero, List.drop_zero] at hdecode
      exact h hdecode
    rw [hrest, List.length_drop]
    omega
  · rw [hrest, List.length_drop, frameLength]
    omega

theorem unfinished_iff : Unfinished q ↔ decodeFrame p q = .incomplete :=
  decodeFrame_eq_incomplete_iff.symm

/-- An unfinished queue is shorter than the greatest length byte (41_assembler.md R67). -/
theorem length_le_of_unfinished (h : Unfinished q) : q.length ≤ 254 := by
  have hfield : lengthField q < 256 := lengthField_lt q
  rcases h with hshort | ⟨-, -, hwait⟩ <;> omega

end Pull

theorem ParseResult.event?_isSome_iff {r : ParseResult} :
    r.event?.isSome = true ↔ r.tag = 1#2 ∨ r.tag = 2#2 := by
  cases r <;> simp [ParseResult.event?, ParseResult.tag]

/-- The state after a PULL, read off from its outputs. -/
theorem exec_pull_inv {s t : State} {r : Option Packet} {ds : List Diag} (hs : s.params.Legal)
    (h : exec .pull s = .next t) (ho : t.out = .pulled r ds) :
    (pullQueue s.params s.q).packet = r ∧ (pullQueue s.params s.q).events = ds ∧
      t.q = (pullQueue s.params s.q).rest := by
  rw [exec_pull_of_pullQueue hs rfl, Host.Outcome.next.injEq] at h
  subst h
  rw [State.answer_out, Output.pulled.injEq] at ho
  exact ⟨ho.1, ho.2, rfl⟩

/-- Settles O30. -/
theorem pullDropsAreBounded : Obligations.PullDropsAreBounded :=
  fun s hs => ⟨_, _, _, exec_pull_of_pullQueue hs rfl, pullQueue_events_length_le s.params s.q⟩

/-- Settles O31: `pullQueue_cases` says where PULL stops, and an Incomplete head is an unfinished
queue. -/
theorem pullLeavesASuffix : Obligations.PullLeavesASuffix := by
  intro s t r ds hs hexec hout
  obtain ⟨hpacket, rfl, hq⟩ := exec_pull_inv hs hexec hout
  refine ⟨?none, ?some⟩
  case none =>
    rintro rfl
    obtain ⟨hdecode, hrest⟩ := pullQueue_of_packet_none hpacket
    have hunfinished : Unfinished t.q := by rw [hq, hrest]; exact unfinished_iff.2 hdecode
    exact ⟨hq.trans hrest, hunfinished, length_le_of_unfinished hunfinished⟩
  case some =>
    rintro k rfl
    rw [hq]
    exact ⟨(pullQueue_of_packet_some hpacket).2, pullQueue_length_of_packet_some hpacket⟩

/-- The window at which PULL returned its packet is the only one that is no framing error behind
windows that all are. -/
theorem pullQueue_events_length_eq {p : Params} {q : List Byte} {k : Packet} {n : Nat}
    (hk : decodeFrame p (q.drop n) = .success k)
    (hbefore : ∀ m, m < n → (decodeFrame p (q.drop m)).event?.isSome = true) :
    (pullQueue p q).events.length = n := by
  rcases Nat.lt_trichotomy (pullQueue p q).events.length n with hlt | heq | hgt
  · have herror := hbefore _ hlt
    rcases pullQueue_cases p q with ⟨-, hstop, -⟩ | ⟨_, -, hstop, -⟩ <;>
      rw [hstop] at herror <;> cases herror
  · exact heq
  · have herror := pullQueue_dropped p q n hgt
    rw [hk] at herror
    cases herror

/-- Settles O32: PULL's own windows are those of `pullQueue_dropped` and `pullQueue_cases`, and no
other number of drops has such windows. -/
theorem pullReturnsTheEarliestFrame : Obligations.PullReturnsTheEarliestFrame := by
  intro s k n hs
  simp only [← ParseResult.event?_isSome_iff]
  constructor
  · rintro ⟨t, ds, hexec, hout, rfl⟩
    obtain ⟨hpacket, rfl, -⟩ := exec_pull_inv hs hexec hout
    exact ⟨(pullQueue_of_packet_some hpacket).1, pullQueue_dropped s.params s.q⟩
  · rintro ⟨hk, hbefore⟩
    have hn := pullQueue_events_length_eq hk hbefore
    refine ⟨_, (pullQueue s.params s.q).events, exec_pull_of_pullQueue hs rfl, ?_, hn⟩
    rcases pullQueue_cases s.params s.q with ⟨-, hstop, -⟩ | ⟨k', hpacket, hstop, -⟩ <;>
      rw [hn, hk] at hstop <;> cases hstop
    rw [State.answer_out, hpacket]

/-- Settles O33: a head with all its bytes there is not Incomplete. -/
theorem pullWithEnoughBytesProgresses : Obligations.PullWithEnoughBytesProgresses := by
  intro s hs h6 hL
  have hdecode : decodeFrame s.params s.q ≠ .incomplete := by
    rw [ne_eq, decodeFrame_eq_incomplete_iff]
    omega
  exact ⟨_, exec_pull_of_pullQueue hs rfl, pullQueue_rest_length_lt hdecode⟩

end Sys2Proof.Machine
end

section
/-! The wait behind a false header (spec/70_reset_and_hazards.md R85, R86). -/

namespace Sys2Proof.Machine

/-- Settles O39: DECODE waits for the bytes the header asks for, and PULL with it. -/
theorem falseHeaderHoldsTheQueue : Obligations.FalseHeaderHoldsTheQueue := by
  intro s l behind hs hq hl hwait
  have hstx : byteAt s.q 0 = stx := by rw [hq]; rfl
  have hfield : lengthField s.q = l.toNat := by rw [hq]; rfl
  have hdecode : decodeFrame s.params s.q = .incomplete :=
    decodeFrame_waiting hstx (by omega) (by omega)
  rw [exec_pull_of_pullQueue hs (pullQueue_incomplete hdecode)]
  rfl

/-- Settles O40: `n` is the number of bytes that the header still asks for. -/
theorem falseHeaderWaitIsBounded : Obligations.FalseHeaderWaitIsBounded := by
  intro p b hp h6 hdecode
  have hfield : lengthField b < 256 := lengthField_lt b
  have hcap : 255 ≤ p.bufferCap := hp.2.2
  obtain hshort | ⟨-, -, hwait⟩ := decodeFrame_eq_incomplete_iff.1 hdecode
  · omega
  refine ⟨lengthField b - b.length, by omega, by omega, fun more hmore => ?_⟩
  rw [ne_eq, decodeFrame_eq_incomplete_iff, lengthField_append (by omega), List.length_append]
  omega

end Sys2Proof.Machine
end

section
/-! Draining in parts (spec/41_assembler.md R69). -/

namespace Sys2Proof.Machine

/-- Draining a queue, adding bytes at its end and draining again does what draining all the bytes at
once does: each pass reads bytes that were there before. -/
theorem Runs.append {p : Params} {q r r' t : List Byte} {l l' : List LogEntry} (h : Runs p q l r)
    (h' : Runs p (r ++ t) l' r') : Runs p (q ++ t) (l ++ l') r' := by
  induction h with
  | stop h => exact h'
  | yield k hk _ ih =>
    refine .yield k ((decodeFrame_append (by rw [hk]; nofun) t).trans hk) ?_
    rw [List.drop_append_of_le_length (frameLength_le_of_decodeFrame hk)]
    exact ih h'
  | @drop q _ _ b d hd _ ih =>
    have hne : decodeFrame p (b :: q) ≠ .incomplete := by
      intro hincomplete
      rw [hincomplete] at hd
      cases hd
    exact .drop d ((congrArg ParseResult.event? (decodeFrame_append hne t)).trans hd) (ih h')

theorem feed_cons_overflow {k : List Byte} {ks : List (List Byte)} {s : State} :
    (feed (k :: ks) s).overflow = false ↔
      (pushDrain k s).overflow = false ∧ (feed ks (pushDrain k s).state).overflow = false :=
  Bool.or_eq_false_iff

/-- Chunks pushed and drained one by one, none overflowing, drain the queue with all of them at its
end. -/
theorem feed_runs {s : State} (chunks : List (List Byte)) (hs : s.params.Legal)
    (hq : decodeFrame s.params s.q = .incomplete) (ho : (feed chunks s).overflow = false) :
    Runs s.params (s.q ++ chunks.flatten) (feed chunks s).log (feed chunks s).state.q := by
  induction chunks generalizing s with
  | nil =>
    rw [List.flatten_nil, List.append_nil]
    exact .stop hq
  | cons k ks ih =>
    obtain ⟨hpush, hrest⟩ := feed_cons_overflow.1 ho
    obtain ⟨hfirst, hparams⟩ := pushDrain_runs hs hpush
    have hlater := ih (by rwa [hparams]) (by rw [hparams]; exact hfirst.rest_incomplete) hrest
    rw [hparams] at hlater
    rw [List.flatten_cons, ← List.append_assoc]
    exact hfirst.append hlater

/-- From an empty queue the stream alone is drained. -/
theorem feed_runs_of_empty {s : State} {chunks : List (List Byte)} (hs : s.params.Legal)
    (hq : s.q = []) (ho : (feed chunks s).overflow = false) :
    Runs s.params chunks.flatten (feed chunks s).log (feed chunks s).state.q := by
  have hruns := feed_runs chunks hs (by rw [hq]; rfl) ho
  rwa [hq, List.nil_append] at hruns

/-- Settles O34: both runs drain the same stream, and a stream is drained in one way. -/
theorem chunkingNeverChangesWhatIsReceived : Obligations.ChunkingNeverChangesWhatIsReceived := by
  intro s chunks hs hq hparts hwhole
  have hone := feed_runs_of_empty hs hq hwhole
  rw [List.flatten_singleton] at hone
  obtain ⟨hlog, hrest⟩ := (feed_runs_of_empty hs hq hparts).unique hone
  exact ⟨hlog, congrArg (List.filterMap LogEntry.packet?) hlog,
    congrArg (List.filterMap LogEntry.event?) hlog, hrest⟩

/-- A stream within the cap does not overflow an empty queue. -/
theorem feed_singleton_overflow {s : State} {k : List Byte} (hs : s.params.Legal) (hq : s.q = [])
    (hk : k.length ≤ s.params.bufferCap) : (feed [k] s).overflow = false := by
  refine feed_cons_overflow.2 ⟨?_, rfl⟩
  rw [pushDrain_overflow hs, hq, List.nil_append, decide_eq_false_iff_not]
  omega

/-- The frames of valid packets, one after another, drain to those packets. -/
theorem runs_frames {p : Params} (hp : p.maxFrame ≤ 255) (ks : List Packet)
    (hks : ∀ k ∈ ks, k.Valid p) :
    Runs p (ks.map fun k => encodeFrame k.address k.command k.data).flatten
      (ks.map .yielded) [] := by
  induction ks with
  | nil => exact .stop rfl
  | cons k ks ih =>
    obtain ⟨⟨haddress, hdata⟩, hrest⟩ := List.forall_mem_cons.1 hks
    rw [List.map_cons, List.map_cons, List.flatten_cons]
    refine .yield k (decodeFrame_encodeFrame_append hp haddress _ hdata _) ?_
    rw [frameLength, List.drop_left' (encodeFrame_length _ _ _)]
    exact ih hrest

/-- Settles O36: `runs_frames` is one way to drain the stream, and there is no other. -/
theorem framesArriveInOrder : Obligations.FramesArriveInOrder := by
  intro s ks hs hq hks hcap
  have hruns := feed_runs_of_empty hs hq (feed_singleton_overflow hs hq hcap)
  rw [List.flatten_singleton] at hruns
  obtain ⟨hlog, hrest⟩ := hruns.unique (runs_frames hs.2.1 ks hks)
  refine ⟨?packets, ?events, hrest⟩
  case packets =>
    rw [Session.packets, hlog, List.filterMap_map]
    exact List.filterMap_some
  case events =>
    rw [Session.events, hlog, List.filterMap_map]
    exact List.filterMap_none _

end Sys2Proof.Machine
end

section
/-! Where in the stream each entry of a log stands (spec/41_assembler.md R70). -/

namespace Sys2Proof.Machine

theorem headAfter_nil : headAfter [] = 0 := rfl

theorem headAfter_append (l r : List LogEntry) :
    headAfter (l ++ r) = headAfter l + headAfter r := by
  rw [headAfter, List.map_append, List.sum_append, ← headAfter, ← headAfter]

theorem headAfter_cons (e : LogEntry) (l : List LogEntry) :
    headAfter (e :: l) = e.advance + headAfter l := by
  rw [headAfter, List.map_cons, List.sum_cons, ← headAfter]

/-- Behind the first entries of a log its other entries drain the rest of the stream. -/
theorem Runs.drop_headAfter {p : Params} {q rest : List Byte} {l r : List LogEntry}
    (h : Runs p q (l ++ r) rest) : Runs p (q.drop (headAfter l)) r rest := by
  induction l generalizing q with
  | nil => exact h
  | cons e l ih =>
    rw [headAfter_cons, ← List.drop_drop]
    cases h with
    | yield k hk later => exact ih later
    | drop d hd later => exact ih later

/-- An entry before another moved the head no further than to the other's place. -/
theorem headAfter_add_advance_le {l l' r r' : List LogEntry} {e : LogEntry}
    (h : l ++ r = l' ++ e :: r') (hlt : headAfter l' < headAfter l) :
    headAfter l' + e.advance ≤ headAfter l := by
  rcases List.append_eq_append_iff.1 h with ⟨m, rfl, -⟩ | ⟨m, rfl, hm⟩
  · rw [headAfter_append] at hlt
    omega
  · cases m with
    | nil => rw [List.append_nil] at hlt; omega
    | cons e' m =>
      cases hm
      rw [headAfter_append, headAfter_cons]
      omega

/-- Every index that the head has passed belongs to one entry's bytes. -/
theorem exists_entry_at {log : List LogEntry} {i : Nat} (h : i < headAfter log) :
    ∃ l e r, log = l ++ e :: r ∧ headAfter l ≤ i ∧ i < headAfter l + e.advance := by
  induction log generalizing i with
  | nil => cases h
  | cons e log ih =>
    by_cases hi : i < e.advance
    · exact ⟨[], e, log, rfl, Nat.zero_le i, by rwa [headAfter_nil, Nat.zero_add]⟩
    · rw [headAfter_cons] at h
      obtain ⟨l, e', r, rfl, hle, hlt⟩ := ih (i := i - e.advance) (by omega)
      refine ⟨e :: l, e', r, rfl, ?_, ?_⟩ <;> rw [headAfter_cons] <;> omega

/-- A frame that the head comes to is received there. -/
theorem Runs.yields_at {p : Params} {q rest : List Byte} {l r : List LogEntry} {e : LogEntry}
    {k : Packet} (h : Runs p q (l ++ e :: r) rest)
    (hk : decodeFrame p (q.drop (headAfter l)) = .success k) : e = .yielded k := by
  have hhere := h.drop_headAfter
  generalize q.drop (headAfter l) = q' at hk hhere
  cases hhere with
  | yield k' hk' _ => rw [hk] at hk'; cases hk'; rfl
  | drop d hd _ => rw [hk] at hd; cases hd

/-- Where the head has passed an index at which DECODE gives a packet, the packet was received there
if and only if no packet received before covers the index. A packet received before ends no later than
an entry behind it starts; and if none covers the index, the entry to whose bytes it belongs starts
there. -/
theorem Runs.received_iff_uncovered {p : Params} {q rest : List Byte} {log : List LogEntry}
    {k : Packet} {i : Nat} (h : Runs p q log rest) (hk : decodeFrame p (q.drop i) = .success k)
    (hpassed : i < headAfter log) :
    (∃ l r, log = l ++ .yielded k :: r ∧ headAfter l = i) ↔
      ¬ ∃ l k' r, log = l ++ .yielded k' :: r ∧ headAfter l < i ∧
        i < headAfter l + (6 + k'.data.length) := by
  constructor
  · rintro ⟨l, r, rfl, rfl⟩ ⟨l', k', r', hlog, hbefore, hcovers⟩
    exact Nat.not_lt.2 (headAfter_add_advance_le hlog hbefore) hcovers
  · intro huncovered
    obtain ⟨l, e, r, rfl, hle, hlt⟩ := exists_entry_at hpassed
    have hat : headAfter l = i := by
      by_contra hne
      cases e with
      | dropped d => rw [LogEntry.advance] at hlt; omega
      | yielded k' => exact huncovered ⟨l, k', r, rfl, by omega, hlt⟩
    obtain rfl := h.yields_at (hat ▸ hk)
    exact ⟨l, r, rfl, hat⟩

/-- Settles O37: at the frame's first byte DECODE gives its packet, whatever bytes follow. -/
theorem frameIsLostOnlyToACoveringFrame : Obligations.FrameIsLostOnlyToACoveringFrame := by
  rintro s pre post k x hs hq ⟨haddress, hdata⟩ rfl ho hpassed
  have hruns := feed_runs_of_empty hs hq ho
  rw [List.flatten_singleton] at hruns
  refine hruns.received_iff_uncovered ?_ hpassed
  rw [List.append_assoc, List.drop_left, decodeFrame_encodeFrame_append hs.2.1 haddress _ hdata]

end Sys2Proof.Machine
end

section
/-! What the instructions write, and why they are refused (spec/10_state.md R15, R16;
60_exceptions.md R77, R78). -/

namespace Sys2Proof.Machine

/-- An operation answers a next state if its body does. -/
theorem operate_total {s : State} {body : Result} (h : ∃ t, body = .next t) :
    ∃ t, operate s body = .next t := by
  by_cases hs : s.params.Legal
  · rwa [operate_legal hs]
  · exact ⟨_, operate_illegal hs body⟩

/-- Every instruction answers a next state: a refusal of the spec is one (log 2). -/
theorem exec_total (i : Instr) (s : State) : ∃ t, exec i s = .next t := by
  cases i with
  | encode a c d =>
    refine operate_total ?_
    cases encodeRefusal s.params a d with
    | none => exact ⟨_, rfl⟩
    | some r => exact ⟨_, rfl⟩
  | _ => exact operate_total ⟨_, rfl⟩

theorem finishDrain_total {rest : List Request} {r : Result} (h : ∃ t, r = .next t) :
    ∃ t, finishDrain rest r = .next t := by
  obtain ⟨t, rfl⟩ := h
  exact ⟨_, rfl⟩

/-- Settles O12: a step changes nothing, refuses the action, or runs an instruction. -/
theorem everyStepAnswersANextState : Obligations.EveryStepAnswersANextState := by
  intro s
  rcases step_cases s with ⟨-, hs⟩ | ⟨_, rest, -, -, hs⟩ | ⟨w, rest, -, hs⟩ | ⟨rest, -, hs⟩ <;>
    rw [hs]
  case inl => exact ⟨_, rfl⟩
  case inr.inl => exact ⟨_, rfl⟩
  case inr.inr.inl => exact exec_total _ _
  case inr.inr.inr => exact finishDrain_total (exec_total _ _)

theorem Effect.port_eq {i : Instr} {s t : State} (h : Effect i s t) : t.port = s.port := by
  cases h <;> simp

/-- Only PUSH, PULL and RESET write the queue. -/
theorem Effect.q_eq {i : Instr} {s t : State} (h : Effect i s t) (hpush : ∀ k, i ≠ .push k)
    (hpull : i ≠ .pull) (hreset : i ≠ .reset) : t.q = s.q := by
  cases h with
  | refused r => exact State.markRefused_q r s
  | pure o => exact State.answer_q o s
  | push k hi => exact absurd hi (hpush k)
  | pull hi => exact absurd hi hpull
  | reset hi => exact absurd hi hreset

/-- Settles O13: each field by the effects of an instruction. -/
theorem instructionsWriteOnlyTheirState : Obligations.InstructionsWriteOnlyTheirState := by
  intro i s t h
  refine ⟨exec_params h, (exec_effect h).port_eq, (exec_effect h).q_eq, exec_keeps_mark i s t h,
    fun hmark => ?_⟩
  rw [exec_refused h, Bool.or_eq_true, Option.isSome_iff_ne_none] at hmark
  exact hmark.symm

/-- Settles O15: the one effect with a reason is the refusal, and every other leaves no reason. -/
theorem refusedOperationHasNoEffect : Obligations.RefusedOperationHasNoEffect := by
  intro i s t r h hr
  cases exec_effect h with
  | refused r' => cases hr; rfl
  | pure o => cases hr
  | push k _ => cases hr
  | pull _ => cases hr
  | reset _ => cases hr

/-- Why an instruction is refused under parameters `p`, if it is (60_exceptions.md R77;
logs 10, 16). -/
def refusalOf (p : Params) : Instr → Option RefuseReason
  | .encode a _ d => if p.Legal then encodeRefusal p a d else some .badParameters
  | _ => if p.Legal then none else some .badParameters

theorem refusalOf_illegal {p : Params} (hp : ¬ p.Legal) (i : Instr) :
    refusalOf p i = some .badParameters := by
  cases i <;> exact if_neg hp

theorem refusalOf_encode {p : Params} (hp : p.Legal) (a c : Byte) (d : List Byte) :
    refusalOf p (.encode a c d) = encodeRefusal p a d :=
  if_pos hp

theorem refusalOf_eq_none {p : Params} (hp : p.Legal) {i : Instr}
    (hi : ∀ a c d, i ≠ .encode a c d) : refusalOf p i = none := by
  cases i with
  | encode a c d => exact absurd rfl (hi a c d)
  | _ => exact if_pos hp

/-- The reason an operation gives under any parameters, from the one its body gives. -/
theorem operate_refusal {s t : State} {body : Result} {r : Option RefuseReason}
    (h : operate s body = .next t) (hbody : ∀ u, body = .next u → u.refusal = r) :
    t.refusal = if s.params.Legal then r else some .badParameters := by
  rcases operate_next h with ⟨hs, rfl⟩ | ⟨hs, hnext⟩
  · rw [if_neg hs, State.markRefused_refusal]
  · rw [if_pos hs, hbody t hnext]

/-- `exec` gives the reason `refusalOf` names. -/
theorem exec_refusal {i : Instr} {s t : State} (h : exec i s = .next t) :
    t.refusal = refusalOf s.params i := by
  cases i with
  | encode a c d =>
    refine operate_refusal h fun u hu => ?_
    cases hr : encodeRefusal s.params a d <;> rw [hr] at hu <;> cases hu <;> rfl
  | _ => exact operate_refusal h fun u hu => by cases hu; rfl

/-- ENCODE's own reasons under legal parameters, the length counted as R17 counts it. -/
theorem encodeRefusal_legal {p : Params} (hp : p.Legal) (a : Byte) (d : List Byte) :
    encodeRefusal p a d =
      if a = 0#8 then some .encodeAddressZero
      else if p.maxFrame < d.length + 6 then some .encodeDataTooLong else none := by
  have hmin : 6 ≤ p.maxFrame := hp.1
  simp only [encodeRefusal, Nat.sub_lt_iff_lt_add' hmin, Nat.add_comm 6]

/-- Settles O14: `exec_refusal` names the reason; ENCODE's two are told apart by its address. -/
theorem refusalsAreExactlyThose : Obligations.RefusalsAreExactlyThose := by
  intro i s t h
  rw [exec_refusal h]
  by_cases hs : s.params.Legal
  · simp only [iff_true_intro hs, not_true_eq_false, true_and]
    by_cases hi : ∃ a c d, i = .encode a c d
    · obtain ⟨a, c, d, rfl⟩ := hi
      rw [refusalOf_encode hs, encodeRefusal_legal hs]
      by_cases ha : a = 0#8 <;> by_cases hd : s.params.maxFrame < d.length + 6 <;> simp [ha, hd]
    · simp only [not_exists] at hi
      simp [refusalOf_eq_none hs hi, hi]
  · simp [refusalOf_illegal hs, hs]

end Sys2Proof.Machine
end

section
/-! Steps of the port (spec/20_memory.md R27, R29; 60_exceptions.md R77). -/

namespace Sys2Proof.Machine

/-- Settles O8. -/
theorem stepRunsTheDecodedInstruction : Obligations.StepRunsTheDecodedInstruction := by
  intro s w rest hp
  rw [step, fetch, hp]
  rfl

/-- Settles O9. -/
theorem idleStepChangesNothing : Obligations.IdleStepChangesNothing := by
  intro s hp
  rw [step, fetch, hp]

/-- Settles O10: the issuer is tested before the action is looked at. -/
theorem concurrentUseIsRefused : Obligations.ConcurrentUseIsRefused := by
  intro s r rest hp hr
  have hfetch : fetch s = .rejected .concurrentUse (s.setPort rest) := by
    rw [fetch, hp]
    exact if_neg hr
  rw [step, hfetch]
  rfl

/-! ## DRAIN step by step (spec/30_encoding.md R45; log 11) -/

theorem step_drain {s : State} {rest : List Request} (hp : s.port = ⟨.host, .drain⟩ :: rest) :
    step s = finishDrain rest (exec .pull s) := by
  rw [step, fetch, hp]
  rfl

theorem run_succ {s t : State} (h : step s = .next t) (n : Nat) :
    Host.Core.run Sys2Proof.core (n + 1) s = Host.Core.run Sys2Proof.core n t := by
  have hstep : Sys2Proof.core.step s = .next t := h
  simp only [Host.Core.run, hstep]

/-- The last step of a DRAIN, its PULL returning None, takes it off the port. -/
theorem step_drain_of_packet_none {s : State} {rest : List Request} (hs : s.params.Legal)
    (hp : s.port = ⟨.host, .drain⟩ :: rest) (hk : (pullQueue s.params s.q).packet = none) :
    step s = .next (((s.setQueue (pullQueue s.params s.q).rest).answer
      (.pulled none (pullQueue s.params s.q).events)).setPort rest) := by
  rw [step_drain hp, exec_pull_of_pullQueue hs rfl, hk]
  rfl

/-- A DRAIN whose PULL returned a packet stays on the port. -/
theorem step_drain_of_packet_some {s : State} {rest : List Request} {k : Packet}
    (hs : s.params.Legal) (hp : s.port = ⟨.host, .drain⟩ :: rest)
    (hk : (pullQueue s.params s.q).packet = some k) :
    step s = .next ((s.setQueue (pullQueue s.params s.q).rest).answer
      (.pulled (some k) (pullQueue s.params s.q).events)) := by
  rw [step_drain hp, exec_pull_of_pullQueue hs rfl, hk]
  rfl

/-- `m` turns of DRAIN's loop, where they are enough, are at most `m` steps. -/
theorem run_drainLoop (m : Nat) (s : State) (rest : List Request) (hs : s.params.Legal)
    (hp : s.port = ⟨.host, .drain⟩ :: rest) (hm : s.q.length < m) :
    ∃ n, 1 ≤ n ∧ n ≤ m ∧
      Host.Core.run Sys2Proof.core n s = .next ((drainLoop m s).state.setPort rest) := by
  induction m generalizing s with
  | zero => cases hm
  | succ m ih =>
    rw [drainLoop_succ hs]
    cases hk : (pullQueue s.params s.q).packet with
    | none =>
      exact ⟨1, le_rfl, Nat.le_add_left 1 m, run_succ (step_drain_of_packet_none hs hp hk) 0⟩
    | some k =>
      have hshorter : (pullQueue s.params s.q).rest.length < s.q.length :=
        ((pullQueue_runs s.params s.q).2 k hk).1
      obtain ⟨n, -, hn, hrun⟩ := ih ((s.setQueue (pullQueue s.params s.q).rest).answer
        (.pulled (some k) (pullQueue s.params s.q).events)) hs hp
        (Nat.lt_of_lt_of_le hshorter (Nat.le_of_lt_succ hm))
      exact ⟨n + 1, Nat.le_add_left 1 n, Nat.succ_le_succ hn,
        (run_succ (step_drain_of_packet_some hs hp hk) n).trans hrun⟩

/-- Settles O11: each step of the DRAIN is one turn of `drainLoop`. -/
theorem drainStepsReachTheDrainedState : Obligations.DrainStepsReachTheDrainedState :=
  fun s rest hs hp => run_drainLoop (s.q.length + 1) s rest hs hp (Nat.lt_succ_self _)

end Sys2Proof.Machine
end

section
/-! The invariant of a step (spec/10_state.md R11, R17; 41_assembler.md R67; 60_exceptions.md
R78). -/

namespace Sys2Proof.Machine

theorem isFrame_encodeFrame {p : Params} (hp : p.maxFrame ≤ 255) {a : Byte} (ha : a ≠ 0#8)
    (c : Byte) {d : List Byte} (hd : d.length + 6 ≤ p.maxFrame) : IsFrame p (encodeFrame a c d) where
  atLeastSix := by rw [encodeFrame_length]; omega
  start := encodeFrame_stx a c d
  length := by rw [encodeFrame_lengthField a c (by omega), encodeFrame_length]
  stop := by
    rw [encodeFrame_length, show 6 + d.length - 1 = 5 + d.length by omega, encodeFrame_etx]
  check := by
    rw [encodeFrame_length, show 6 + d.length - 2 = 4 + d.length by omega, slice_zero,
      encodeFrame_take_header, encodeFrame_check]
  bound := by rw [encodeFrame_length]; omega
  address := ha

/-- Outputs are well formed beside a queue `q`: the clauses of `State.Inv` about `out`. -/
structure Output.WellFormed (p : Params) (q : List Byte) (o : Output) : Prop where
  encoded : ∀ f, o = .frame f → IsFrame p f
  parsed : ∀ k, o = .parsed (.success k) → k.Valid p
  pulled : ∀ k ds, o = .pulled (some k) ds → k.Valid p
  drained : ∀ ds, o = .pulled none ds → Unfinished q

/-- No outputs are well formed. -/
theorem Output.wellFormed_nothing (p : Params) (q : List Byte) : Output.nothing.WellFormed p q :=
  ⟨nofun, nofun, nofun, nofun⟩

/-- A queue within the cap and well-formed outputs make a good state. -/
theorem State.inv_of_answer {s : State} {v : List Byte} {o : Output} (hs : s.params.Legal)
    (hv : v.length ≤ s.params.bufferCap) (ho : o.WellFormed s.params v) :
    ((s.setQueue v).answer o).Inv :=
  ⟨hs, hv, ho.encoded, ho.parsed, ho.pulled, ho.drained, nofun⟩

section Keeps
variable {s : State} (h : s.Inv)
include h

theorem State.Inv.setPort (v : List Request) : (s.setPort v).Inv :=
  ⟨h.legal, h.withinCap, h.encoded, h.parsed, h.pulled, h.drained, h.marked⟩

theorem State.Inv.markRefused (r : RefuseReason) : (s.markRefused r).Inv :=
  ⟨h.legal, h.withinCap, nofun, nofun, nofun, nofun, fun _ _ => ⟨rfl, rfl⟩⟩

/-- An operation that leaves the queue as it was. -/
theorem State.Inv.answer {o : Output} (ho : o.WellFormed s.params s.q) : (s.answer o).Inv :=
  State.inv_of_answer h.legal h.withinCap ho

theorem execEncode_keeps_inv {t : State} {a c : Byte} {d : List Byte}
    (ht : execEncode a c d s = .next t) : t.Inv := by
  by_cases ha : a = 0#8
  · subst ha
    rw [execEncode_addressZero h.legal, Host.Outcome.next.injEq] at ht
    exact ht ▸ h.markRefused _
  by_cases hd : d.length + 6 ≤ s.params.maxFrame
  · rw [execEncode_valid h.legal c ha hd, Host.Outcome.next.injEq] at ht
    refine ht ▸ h.answer ⟨?_, nofun, nofun, nofun⟩
    rintro _ ⟨⟩
    exact isFrame_encodeFrame h.legal.2.1 ha c hd
  · rw [execEncode_tooLong h.legal c ha (Nat.lt_of_not_le hd), Host.Outcome.next.injEq] at ht
    exact ht ▸ h.markRefused _

theorem execDecode_keeps_inv {t : State} {b : List Byte} (ht : execDecode b s = .next t) :
    t.Inv := by
  rw [execDecode_legal h.legal, Host.Outcome.next.injEq] at ht
  refine ht ▸ h.answer ⟨nofun, fun k hk => ?_, nofun, nofun⟩
  rw [Output.parsed.injEq] at hk
  exact (encodeFrame_of_decodeFrame hk).2.2.2

theorem execPush_keeps_inv {t : State} {k : List Byte} (ht : execPush k s = .next t) : t.Inv := by
  rw [execPush_legal h.legal, Host.Outcome.next.injEq] at ht
  exact ht ▸ State.inv_of_answer h.legal (capKeep_length_le _ _) ⟨nofun, nofun, nofun, nofun⟩

/-- What PULL puts out is well formed beside the queue it leaves. -/
theorem execPull_keeps_inv {t : State} (ht : execPull s = .next t) : t.Inv := by
  rw [execPull_legal h.legal, Host.Outcome.next.injEq] at ht
  refine ht ▸ State.inv_of_answer h.legal (pullQueue_rest_length_le.trans h.withinCap)
    ⟨nofun, nofun, fun k ds hk => ?pulled, fun ds hk => ?drained⟩ <;>
    rw [Output.pulled.injEq] at hk
  case pulled => exact (encodeFrame_of_decodeFrame (pullQueue_of_packet_some hk.1).1).2.2.2
  case drained =>
    obtain ⟨hdecode, hrest⟩ := pullQueue_of_packet_none hk.1
    rw [hrest]
    exact unfinished_iff.2 hdecode

theorem execReset_keeps_inv {t : State} (ht : execReset s = .next t) : t.Inv := by
  rw [execReset_legal h.legal, Host.Outcome.next.injEq] at ht
  exact ht ▸ State.inv_of_answer h.legal (Nat.zero_le _) (Output.wellFormed_nothing _ _)

theorem classifyByte_keeps_inv {t : State} {c : Byte} (ht : classifyByte c s = .next t) :
    t.Inv := by
  rw [classifyByte_legal h.legal, Host.Outcome.next.injEq] at ht
  exact ht ▸ h.answer ⟨nofun, nofun, nofun, nofun⟩

end Keeps

theorem exec_keeps_inv (i : Instr) (s t : State) (ht : exec i s = .next t) (h : s.Inv) : t.Inv := by
  cases i with
  | encode a c d => exact execEncode_keeps_inv h ht
  | decode b => exact execDecode_keeps_inv h ht
  | push k => exact execPush_keeps_inv h ht
  | pull => exact execPull_keeps_inv h ht
  | reset => exact execReset_keeps_inv h ht
  | _ => exact classifyByte_keeps_inv h ht

/-- Settles O46: no write of the port, no CONCURRENT_USE and no instruction breaks the invariant. -/
theorem everyStepKeepsTheInvariant : Obligations.EveryStepKeepsTheInvariant :=
  fun s t hs ht => step_keeps (P := State.Inv) (fun _ v h => h.setPort v)
    (fun _ h => h.markRefused .concurrentUse) exec_keeps_inv s t ht hs

theorem inv_boot {p : Params} (hp : p.Legal) : (State.boot p).Inv :=
  ⟨hp, Nat.zero_le _, nofun, nofun, nofun, nofun, nofun⟩

/-- Settles O45. -/
theorem bootIsGood : Obligations.BootIsGood := ⟨inv_boot (by decide), fun _ => inv_boot⟩

end Sys2Proof.Machine
end

section
/-! The host that keeps its duties (spec/60_exceptions.md R77, 70_reset_and_hazards.md
section 1). -/

namespace Sys2Proof.Machine

/-- The premises of a good run: legal parameters, a clear mark, and on the port only the host's own
well-formed actions. -/
structure State.Dutiful (s : State) : Prop where
  legal : s.params.Legal
  clear : s.refused = false
  port : ∀ r ∈ s.port, r.issuer = .host ∧
    ∀ w, r.action = .word w → (decodeWord w).wellFormed s.params = true

/-- A well-formed instruction gives no reason under legal parameters. -/
theorem refusalOf_wellFormed {p : Params} (hp : p.Legal) {i : Instr} (hi : i.wellFormed p = true) :
    refusalOf p i = none := by
  have hduty : i.callerDuty p = true := (Bool.and_eq_true_iff.1 hi).2
  cases i with
  | encode a c d =>
    obtain ⟨ha, hd⟩ : a ≠ 0#8 ∧ d.length + 6 ≤ p.maxFrame := by
      simpa [Instr.callerDuty] using hduty
    rw [refusalOf_encode hp, encodeRefusal_legal hp, if_neg ha, if_neg (Nat.not_lt.2 hd)]
  | _ => exact refusalOf_eq_none hp nofun

/-- A well-formed instruction is performed: the mark, the parameters and the port stay as they
are. -/
theorem exec_wellFormed {i : Instr} {s : State} (hs : s.params.Legal)
    (hi : i.wellFormed s.params = true) :
    ∃ t, exec i s = .next t ∧ t.refused = s.refused ∧ t.params = s.params ∧ t.port = s.port := by
  obtain ⟨t, ht⟩ := exec_total i s
  refine ⟨t, ht, ?_, exec_params ht, (exec_effect ht).port_eq⟩
  rw [exec_refused ht, exec_refusal ht, refusalOf_wellFormed hs hi, Option.isSome_none,
    Bool.false_or]

/-- The duties carry over to a state with the same mark and parameters, and no new action. -/
theorem State.Dutiful.of_eq {s t : State} (h : s.Dutiful) (hrefused : t.refused = s.refused)
    (hparams : t.params = s.params) (hport : ∀ r ∈ t.port, r ∈ s.port) : t.Dutiful where
  legal := hparams ▸ h.legal
  clear := hrefused.trans h.clear
  port r hr := hparams ▸ h.port r (hport r hr)

theorem step_dutiful {s : State} (h : s.Dutiful) : ∃ t, step s = .next t ∧ t.Dutiful := by
  rcases step_cases s with ⟨-, hs⟩ | ⟨r, rest, hp, hr, -⟩ | ⟨w, rest, hp, hs⟩ | ⟨rest, hp, hs⟩
  case inl => exact ⟨s, hs, h⟩
  case inr.inl => exact absurd (h.port r (hp ▸ List.mem_cons_self)).1 hr
  case inr.inr.inl =>
    have hw : (decodeWord w).wellFormed s.params = true :=
      (h.port ⟨.host, .word w⟩ (hp ▸ List.mem_cons_self)).2 w rfl
    obtain ⟨t, ht, hrefused, hparams, hport⟩ :=
      exec_wellFormed (s := s.setPort rest) h.legal hw
    refine ⟨t, hs.trans ht, h.of_eq hrefused hparams fun r hr => ?_⟩
    rw [hport, State.setPort_port] at hr
    exact hp ▸ List.mem_cons_of_mem _ hr
  case inr.inr.inr =>
    obtain ⟨u, hu, hrefused, hparams, hport⟩ := exec_wellFormed (i := .pull) h.legal rfl
    have hkept : u.Dutiful := h.of_eq hrefused hparams fun r hr => hport ▸ hr
    obtain ⟨t, ht⟩ := finishDrain_total (rest := rest) ⟨u, hu⟩
    refine ⟨t, hs.trans ht, ?_⟩
    obtain ⟨_, hu', rfl | rfl⟩ := finishDrain_next ht <;>
      rw [hu, Host.Outcome.next.injEq] at hu' <;> subst hu'
    · exact hkept
    · exact h.of_eq hrefused hparams fun r hr => hp ▸ List.mem_cons_of_mem _ hr

theorem goodRun_of_dutiful (n : Nat) {s : State} (h : s.Dutiful) : ∃ t, GoodRun n s t := by
  induction n generalizing s with
  | zero => exact ⟨s, rfl, h.clear⟩
  | succ n ih =>
    obtain ⟨u, hu, hkept⟩ := step_dutiful h
    obtain ⟨t, hrun, hrefused⟩ := ih hkept
    exact ⟨t, (run_succ hu n).trans hrun, hrefused⟩

/-- Settles O47, by induction on the number of steps: each answers a state that is dutiful again. -/
theorem dutifulHostIsNeverRefused : Obligations.DutifulHostIsNeverRefused :=
  fun n _ hs hclear hport => goodRun_of_dutiful n ⟨hs, hclear, hport⟩

end Sys2Proof.Machine
end

section
/-! Port words and table words (spec/30_encoding.md R39, R40, R44). -/

namespace Sys2Proof

/-- A canonical UNKNOWN names a byte that CLASSIFY does not find (40_codec.md R48). -/
theorem classify_of_canonical {c : Byte} (h : (Instr.unknown c).canonical = true) :
    classify c = .unknown c := by
  rcases classify_cases c with ⟨row, hrow, hcode, -⟩ | ⟨-, hname⟩
  · have hlisted : commandTable.any (fun row => row.2 == c) = true :=
      List.any_eq_true.2 ⟨row, hrow, beq_iff_eq.2 hcode⟩
    rw [Instr.canonical, hlisted] at h
    cases h
  · exact hname

/-- Settles O1: an operation's word carries its operands, a row's word its own code, and the code of
a canonical UNKNOWN classifies as itself. -/
theorem portWordReadsBackAsInstruction : Obligations.PortWordReadsBackAsInstruction := by
  intro i hi
  cases i with
  | unknown c => rw [encodeInstr, decodeWord, classify_of_canonical hi, instrOfName]
  | _ => rfl

/-- The four values of the `op` field. -/
theorem op_cases : ∀ op : BitVec 2, op = 0b00#2 ∨ op = 0b01#2 ∨ op = 0b10#2 ∨ op = 0b11#2 := by
  decide

/-- Settles O2. -/
theorem opFieldSelectsOperation : Obligations.OpFieldSelectsOperation := by
  refine ⟨fun _ _ _ => ⟨rfl, rfl, rfl, rfl⟩, rfl, fun op a c bs => ?_⟩
  rcases op_cases op with rfl | rfl | rfl | rfl <;> simp [decodeWord]

/-- Settles O3: each word is evaluated. -/
theorem tableWordsDecode : Obligations.TableWordsDecode :=
  ⟨rfl, rfl, rfl, rfl, rfl, rfl, rfl, rfl, rfl⟩

end Sys2Proof
end

section
/-! What the command-code rows, ENCODE's refusals and DECODE put out (spec/40_codec.md R48, R49,
R53). -/

namespace Sys2Proof.Machine

/-- A command-code row puts out the name that CLASSIFY gives its code. -/
theorem exec_instrOfName_legal {s : State} (hs : s.params.Legal) {n : CommandName}
    (hn : classify n.code = n) :
    exec (instrOfName n) s = .next { s with out := .classified n, refusal := none } := by
  rw [exec_instrOfName, classifyByte_legal hs, hn, State.answer]

/-- Settles O5: each row's name is that of its code in the table of CLASSIFY. -/
theorem commandRowsPutOutTheirNames : Obligations.CommandRowsPutOutTheirNames := by
  intro s hs
  obtain ⟨ok, error, stop, volume, state, price, block, linetest, progI, progW, unblock, zer,
    progPrc, tank, -, -⟩ := commandBytesClassify
  have row (n : CommandName) (hn : classify n.code = n) := exec_instrOfName_legal hs hn
  exact ⟨row .ok ok, row .error error, row .stop stop, row .volume volume, row .state state,
    row .price price, row .block block, row .linetest linetest, row .progI progI, row .progW progW,
    row .unblock unblock, row .zer zer, row .progPrc progPrc, row .tank tank,
    fun c => classifyByte_legal hs c, fun c hc => row (.unknown c) (classify_of_canonical hc)⟩

/-- Settles O18. -/
theorem encodeRefusesInvalidPackets : Obligations.EncodeRefusesInvalidPackets :=
  fun _ _ c d hs => ⟨execEncode_addressZero hs c d, fun ha hd => execEncode_tooLong hs c ha hd⟩

/-- Settles O19. -/
theorem decodeCompletesOnEverySequence : Obligations.DecodeCompletesOnEverySequence :=
  fun _ b hs => execDecode_legal hs b

end Sys2Proof.Machine
end

section
/-! Two streams run from end to end (spec/90_conflicts.md C2, C3; 95_test_vectors.md A8, A9,
A12). -/

namespace Sys2Proof.Machine

/-- Settles O38: both streams are run. -/
theorem oneCorruptByteCanLoseTwoFrames : Obligations.OneCorruptByteCanLoseTwoFrames :=
  ⟨_, rfl, by decide, by decide, by decide⟩

/-- A header that asks for 255 bytes, with 250 of them there. -/
def longHeader : List Byte := stx :: 0xFF#8 :: List.replicate 248 0#8

/-- Settles O35: on the smallest legal queue, a frame of 6 bytes and then 250 bytes of a header that
waits. Pushed as one chunk the frame loses its first byte to the cap. -/
theorem overflowBreaksChunking : Obligations.OverflowBreaksChunking := by
  refine ⟨State.boot ⟨255, 255⟩, encodeFrame 1#8 75#8 [], longHeader, by decide, rfl, ?parts,
    ?whole, ?packets⟩
  case parts => decide +kernel
  case whole => decide +kernel
  case packets => decide +kernel

end Sys2Proof.Machine
end

section
/-! Written lines read back (spec/30_encoding.md R45). -/

namespace Sys2Proof.Machine

/-! ## The words of a written line -/

/-- The word under way is a word of its own where it is not empty. -/
theorem flush_word {v : List Char} (hv : v ≠ []) : flush v = [v] := by
  rw [flush, List.isEmpty_eq_false_iff.2 hv, if_neg Bool.false_ne_true]

theorem lexLine_space (w cs : List Char) : lexLine w (' ' :: cs) = flush w ++ lexLine [] cs := by
  simp [lexLine, isBlank]

theorem lexLine_mark (w : List Char) {m : Char} (hm : isMark m = true) (cs : List Char) :
    lexLine w (m :: cs) = flush w ++ [m] :: lexLine [] cs := by
  obtain (rfl | rfl) | rfl : (m = ',' ∨ m = '[') ∨ m = ']' := by simpa [isMark] using hm
  all_goals simp [lexLine, isBlank, isMark]

section Word
variable {v : List Char} (hv : v.all inWord = true) (hne : v ≠ [])
include hv hne

theorem lexLine_word_space (cs : List Char) :
    lexLine [] (v ++ ' ' :: cs) = v :: lexLine [] cs := by
  rw [lexLine_word _ _ _ hv, List.nil_append, lexLine_space, flush_word hne, List.singleton_append]

theorem lexLine_word_mark {m : Char} (hm : isMark m = true) (cs : List Char) :
    lexLine [] (v ++ m :: cs) = v :: [m] :: lexLine [] cs := by
  rw [lexLine_word _ _ _ hv, List.nil_append, lexLine_mark _ hm, flush_word hne,
    List.singleton_append]

end Word

theorem lexLine_nil_space (cs : List Char) : lexLine [] (' ' :: cs) = lexLine [] cs :=
  lexLine_space [] cs

theorem lexLine_nil_mark {m : Char} (hm : isMark m = true) (cs : List Char) :
    lexLine [] (m :: cs) = [m] :: lexLine [] cs :=
  lexLine_mark [] hm cs

theorem writeHexPair_ne_nil (b : Byte) : writeHexPair b ≠ [] := nofun

theorem writeByte_ne_nil (b : Byte) : writeByte b ≠ [] := nofun

/-- The empty word is no command, and a written command is one. -/
theorem writeCommand_ne_nil (c : Byte) : writeCommand c ≠ [] := by
  intro hnil
  have hread := readCommand_writeCommand c
  rw [hnil, show readCommand [] = none from rfl] at hread
  cases hread

/-- A list's bytes are a word each, and its closing bracket is one. -/
theorem lexLine_writeBytes : ∀ bs : List Byte,
    lexLine [] (writeBytes bs) = bs.map writeHexPair ++ [[']']]
  | [] => lexLine_nil_mark rfl []
  | [b] => lexLine_word_mark (writeHexPair_inWord b) (writeHexPair_ne_nil b) rfl []
  | b :: c :: bs =>
    calc lexLine [] (writeHexPair b ++ ' ' :: writeBytes (c :: bs))
      _ = writeHexPair b :: lexLine [] (writeBytes (c :: bs)) :=
        lexLine_word_space (writeHexPair_inWord b) (writeHexPair_ne_nil b) _
      _ = writeHexPair b :: ((c :: bs).map writeHexPair ++ [[']']]) := by
        rw [lexLine_writeBytes (c :: bs)]

/-- A word, and a list of bytes behind it. -/
theorem lexLine_word_list {v : List Char} (hv : v.all inWord = true) (hne : v ≠ [])
    (bs : List Byte) : lexLine [] (v ++ ' ' :: '[' :: writeBytes bs) =
      v :: ['['] :: (bs.map writeHexPair ++ [[']']]) := by
  rw [lexLine_word_space hv hne, lexLine_nil_mark rfl, lexLine_writeBytes]

/-- The operands of ENCODE. -/
theorem lexLine_encode_operands (a c : Byte) (d : List Byte) :
    lexLine [] (writeByte a ++ ',' :: ' ' ::
        (writeCommand c ++ ',' :: ' ' :: '[' :: writeBytes d)) =
      writeByte a :: [','] :: writeCommand c :: [','] :: ['['] ::
        (d.map writeHexPair ++ [[']']]) := by
  rw [lexLine_word_mark (writeByte_inWord a) (writeByte_ne_nil a) rfl, lexLine_nil_space,
    lexLine_word_mark (writeCommand_inWord c) (writeCommand_ne_nil c) rfl, lexLine_nil_space,
    lexLine_nil_mark rfl, lexLine_writeBytes]

/-! ## The words read -/

theorem readBytes_map_writeHexPair (bs : List Byte) :
    readBytes (bs.map writeHexPair ++ [[']']]) = some bs := by
  induction bs with
  | nil => rfl
  | cons b bs ih =>
    have hopen : writeHexPair b ≠ [']'] := by simp [writeHexPair]
    simp only [List.map_cons, List.cons_append, readBytes, if_neg hopen,
      readHexPair_writeHexPair, ih]

theorem readEncode_written (a c : Byte) (d : List Byte) :
    readEncode (writeByte a :: [','] :: writeCommand c :: [','] :: ['['] ::
      (d.map writeHexPair ++ [[']']])) = some (.encode a c d) := by
  simp only [readEncode, readByte_writeByte, readCommand_writeCommand, readBytes_map_writeHexPair]

theorem readList_written (bs : List Byte) :
    readList (['['] :: (bs.map writeHexPair ++ [[']']])) = some bs :=
  readBytes_map_writeHexPair bs

section Words
variable (ws : List (List Char))

theorem readWords_encode :
    readWords (['E', 'N', 'C', 'O', 'D', 'E'] :: ws) = wordAction (readEncode ws) := rfl

theorem readWords_decode :
    readWords (['D', 'E', 'C', 'O', 'D', 'E'] :: ws) = wordAction ((readList ws).map .decode) := rfl

theorem readWords_push :
    readWords (['P', 'U', 'S', 'H'] :: ws) = wordAction ((readList ws).map .push) := rfl

end Words

theorem readLine_encode (a c : Byte) (d : List Byte) :
    readLine (['E', 'N', 'C', 'O', 'D', 'E'] ++ ' ' ::
      (writeByte a ++ ',' :: ' ' :: (writeCommand c ++ ',' :: ' ' :: '[' :: writeBytes d))) =
      .ok (some (.word (encodeInstr (.encode a c d)))) := by
  rw [readLine, lexLine_word_space (by decide) (by decide), lexLine_encode_operands,
    readWords_encode, readEncode_written, wordAction]

theorem readLine_decode (bs : List Byte) :
    readLine (['D', 'E', 'C', 'O', 'D', 'E'] ++ ' ' :: '[' :: writeBytes bs) =
      .ok (some (.word (encodeInstr (.decode bs)))) := by
  rw [readLine, lexLine_word_list (by decide) (by decide), readWords_decode, readList_written,
    Option.map_some, wordAction]

theorem readLine_push (k : List Byte) :
    readLine (['P', 'U', 'S', 'H'] ++ ' ' :: '[' :: writeBytes k) =
      .ok (some (.word (encodeInstr (.push k)))) := by
  rw [readLine, lexLine_word_list (by decide) (by decide), readWords_push, readList_written,
    Option.map_some, wordAction]

/-- Settles O7: a written line's words are those of `lexLine`, and each word reads back as what it
was written for; PULL and RESET have no operands to read. -/
theorem listingLineReadsBack : Obligations.ListingLineReadsBack := by
  intro i line h
  cases i with
  | encode a c d =>
    cases h
    rw [← readLine_encode]
    simp only [List.append_assoc, List.cons_append, List.nil_append]
  | decode bs => cases h; exact readLine_decode bs
  | push k => cases h; exact readLine_push k
  | pull => cases h; rfl
  | reset => cases h; rfl
  | _ => cases h

end Sys2Proof.Machine
end
